-- ==== Sys2Proof/Word.lean ====
section
/-! DEFINITION. The three widths of the block's data (00_scope.md R9, R10): 8-bit bytes and codes, 64-bit
words, 128-bit values. -/

namespace Sys2Proof

/-- A byte of BUF, an opcode, a transaction header or STATUS. -/
abbrev Byte := BitVec 8

/-- One 64-bit half of a register, and the data word of a host transaction (R9 `WORD`). -/
abbrev Word := BitVec 64

/-- A 128-bit unsigned value (R9 `WIDTH`), the source's WideUint. -/
abbrev Wide := BitVec 128

/-- MAX, `2^128 - 1` (R15). -/
abbrev wideMax : Wide := BitVec.allOnes 128

end Sys2Proof
end

