-- ==== Sys2Proof/Config.lean ====
section
/-! DEFINITION. The parameters of 00_scope.md R9: those with a value, and the OPEN ones. -/

namespace Sys2Proof

/-- R9 `RADIX_MIN`. -/
abbrev Config.radixMin : Nat := 2

/-- R9 `RADIX_MAX`. -/
abbrev Config.radixMax : Nat := 64

/-- R9 `BUF_BYTES`. -/
abbrev Config.bufBytes : Nat := 16

/-- R9 `DIV_ITER_MAX`. -/
abbrev Config.divIterMax : Nat := 128

/-- The OPEN parameter LATENCY (R9, decision D5), a free value: the number of steps other agents take before the block
completes a command, which is LATENCY - 1. It is a function of which draw it is, of the opcode, of the halves of A and
B and of BUF's cells, for LATENCY "may differ from command to command and may depend on the operands"
(70_reset_and_hazards.md R291). It has no body: nothing can be proved about it but that it is a natural number (R290:
finite). DESIGN CHOICE in its form, safe for a claim about one run, unsafe for a comparison of two; log entry 1. -/
opaque Config.latency (draw : Nat) (opcode : Byte) (aLo aHi bLo bHi : Option Word)
    (buf : List (Nat × Byte)) : Nat

/-- The OPEN host parameters SYM62 and SYM63 (R9, decision D18), an argument of the host's text procedures. -/
structure HostParams where
  sym62 : Byte
  sym63 : Byte
deriving DecidableEq, Repr

end Sys2Proof
end

