-- ==== Sys2Proof/Syntax.lean ====
section
/-! DEFINITION. The instructions (spec/opcode_table.json, 30 rows): 28 commands with implicit operands
(30_encoding.md R80, R81) and the two host transactions (R83); and the two places an instruction's bits arrive. -/

namespace Sys2Proof

/-- One constructor per row of spec/opcode_table.json. -/
inductive Instr where
  -- compare (40_compare.md)
  | cmp | eq | ne | lt | le | gt | ge
  -- add and subtract (41_add_sub.md)
  | add | sub | inc | dec | neg
  -- multiply (42_multiply.md)
  | mul
  -- bitwise and shift (43_bitwise_shift.md)
  | and | or | xor | not | shl | shr
  -- bit length (44_bitlen.md)
  | msbidx | lsbidx | popcnt
  -- divide and radix (45_divide.md, 46_radix.md)
  | divmod | rdiv
  -- byte codec (47_bytecodec.md)
  | encbe | encle | decbe | decle
  /-- Host write of `data` to the register of `index` (30_encoding.md R86). -/
  | hwr (index : BitVec 5) (data : Word)
  /-- Host read of the register of `index` (30_encoding.md R86). -/
  | hrd (index : BitVec 5)
deriving DecidableEq, Repr

/-- The two formats (30_encoding.md R80, R83): a command word, which arrives through CMD, and a host
transaction, which arrives at the host port. They are decoded apart, so their bit patterns may coincide. -/
inductive Code where
  | command (opcode : Byte)
  | transaction (header : Byte) (data : Word)
deriving DecidableEq, Repr

/-- Whether the instruction is one of the 28 commands of 30_encoding.md R82. -/
def Instr.isCommand : Instr → Bool
  | .cmp | .eq | .ne | .lt | .le | .gt | .ge => true
  | .add | .sub | .inc | .dec | .neg => true
  | .mul => true
  | .and | .or | .xor | .not | .shl | .shr => true
  | .msbidx | .lsbidx | .popcnt => true
  | .divmod | .rdiv => true
  | .encbe | .encle | .decbe | .decle => true
  | .hwr _ _ => false
  | .hrd _ => false

end Sys2Proof
end

