-- ==== Sys2Proof/Machine/State.lean ====
section
/-! DEFINITION. The machine's state as plain data (10_state.md R20, R34, R36), the reasons it stops
(60_exceptions.md R262), and the state after reset (10_state.md R35). -/

namespace Sys2Proof.Machine

/-- The model faults of 60_exceptions.md R262. A fault stops the model: it is the model's refusal to give a
meaning where the spec gives none. -/
inductive Fault where
  /-- Raised by `execHwr`, `execHrd` and the fetch of a transaction: a write or a hidden read while BUSY, a write
  of a read-only register, a reserved index, a malformed header, or oversized data for an 8-bit register
  (R51, R52, R54, R83, R86). Safe: the spec gives the hardware's behaviour there no meaning. -/
  | hostProtocol
  /-- Raised by `execHrd` on an UNWRITTEN half or byte and by every command with an UNWRITTEN operand
  (10_state.md R25, 30_encoding.md R86 and R92 "fault(UNWRITTEN_READ); stop", the table of 60_exceptions.md R262).
  Safe: the spec stops the model there and says that no value may be assumed. -/
  | unwrittenRead
deriving DecidableEq, Repr

/-- Why a step has no meaning. -/
inductive Refusal where
  /-- For an arm of `exec` whose instruction has no meaning yet; no arm answers it. Safe. -/
  | notModelled (mnemonic : String)
deriving DecidableEq, Repr

/-- The 16-byte buffer BUF (10_state.md R33), the block's only memory: (address, byte) cells with addresses
rising and below 16. A byte not listed is UNWRITTEN (R25; log entry 15). -/
abbrev Memory := List Host.Cell

/-- The division engine's working registers (10_state.md R34 (b), 45_divide.md R182); no host access reads them. -/
structure DivWork where
  rem : Wide
  trial : Wide
  quot : Wide
  /-- The shift counter, at most 127 (R184). -/
  shift : BitVec 7
deriving DecidableEq, Repr

/-- What the host, or the platform, does next (30_encoding.md R90, 70_reset_and_hazards.md R280). -/
inductive HostEvent where
  /-- A transaction with this header and data word (30_encoding.md R83). -/
  | transaction (header : Byte) (data : Word)
  /-- The pseudo-instruction `poll` (30_encoding.md R88): reads of STATUS until BUSY is 0. -/
  | poll
  /-- Reset is asserted (70_reset_and_hazards.md R280). -/
  | reset
deriving DecidableEq, Repr

/-- The state. In a register position `none` is UNWRITTEN, the spec's own value of that position (10_state.md
R20, R25, R36; log entry 3). -/
structure State where
  /-- Operand register A (R22). -/
  aLo : Option Word
  aHi : Option Word
  /-- Operand register B (R23). -/
  bLo : Option Word
  bHi : Option Word
  /-- Result register R (R24). -/
  rLo : Option Word
  rHi : Option Word
  /-- Result register R2 (R26). -/
  r2Lo : Option Word
  r2Hi : Option Word
  /-- BUF (R33). -/
  buf : Memory
  /-- STATUS (R30): BUSY bit 0, OK bit 1, ERR bits 4:2. -/
  status : Byte
  /-- The opcode of the command in flight, or none (R34 (a)); what a write of CMD (R32) leaves behind. -/
  pending : Option Byte
  /-- The division working registers (R34 (b)). -/
  divWork : DivWork
  /-- The recorded model fault, never cleared (R36, 60_exceptions.md R263; log entry 8). -/
  fault : Option Fault
  /-- The model's own: steps left of the LATENCY draw of the command in flight (log entry 1). -/
  wait : Nat
  /-- The model's own: LATENCY draws made so far, an argument of the next free value (log entries 1, 2). -/
  draws : Nat
  /-- The model's own: what the host does next, in its program's order (R90; log entry 6). -/
  host : List HostEvent
  /-- The model's own: the data words returned by host reads, newest first (R83; log entry 7). -/
  replies : List Word
deriving DecidableEq, Repr

/-- The machine right after reset (10_state.md R35): every register half and BUF byte UNWRITTEN, STATUS 0x00, no
command in flight. The working registers are "unspecified, unobservable" there: zero is the model's, DESIGN
CHOICE, log entry 4. The model's own fields start at 0 and empty (log entries 2, 6, 7). -/
def State.reset : State where
  aLo := none
  aHi := none
  bLo := none
  bHi := none
  rLo := none
  rHi := none
  r2Lo := none
  r2Hi := none
  buf := []
  status := 0x00
  pending := none
  divWork := { rem := 0, trial := 0, quot := 0, shift := 0 }
  fault := none
  wait := 0
  draws := 0
  host := []
  replies := []

/-- What one step answers. -/
abbrev Result := Host.Outcome State Fault Refusal

end Sys2Proof.Machine
end

