-- ==== Sys2Proof/Machine/Flags.lean ====
section
/-! DEFINITION. STATUS (10_state.md R30, R31) and the failure codes (60_exceptions.md R251). The block has no
condition flags (10_state.md R29): STATUS is all the outcome a command leaves beside its results. -/

namespace Sys2Proof.Machine

/-- The failures of a command (60_exceptions.md R251). -/
inductive FailCode where
  /-- DIVMOD with B = 0 (45_divide.md R181). -/
  | divz
  /-- RDIV with B outside [2, 64] (46_radix.md R201). -/
  | badradix
  /-- A reserved opcode (30_encoding.md R84). -/
  | illop
deriving DecidableEq, Repr

/-- The number of a failure in STATUS.ERR (R251). -/
def FailCode.err : FailCode → Byte
  | .divz => 1
  | .badradix => 2
  | .illop => 3

/-- STATUS while a command is in flight: BUSY = 1, OK = 0, ERR = 0 (R31, R91). -/
def statusBusy : Byte := 0x01

/-- STATUS after a success: BUSY = 0, OK = 1, ERR = 0 (R92). -/
def statusOk : Byte := 0x02

/-- STATUS after a failure: `code << 2` (R92). -/
def statusFail (c : FailCode) : Byte := c.err <<< 2

/-- STATUS.BUSY, bit 0 (R30). -/
def State.busy (s : State) : Bool := s.status.getLsbD 0

/-- STATUS.OK, bit 1 (R30). -/
def State.okBit (s : State) : Bool := s.status.getLsbD 1

/-- STATUS.ERR, bits 4:2 (R30). -/
def State.errField (s : State) : BitVec 3 := s.status.extractLsb' 2 3

end Sys2Proof.Machine
end

