-- ==== Sys2Proof/Machine/Wide.lean ====
section
/-! DEFINITION. The two words of a 128-bit value and the word-level algorithms on them (00_scope.md R10;
41_add_sub.md; 42_multiply.md; 43_bitwise_shift.md; 44_bitlen.md), as the spec's pseudocode writes them. -/

namespace Sys2Proof.Machine

/-- `hi(v) = v[127:64]` (R10). -/
def hiWord (v : Wide) : Word := v.extractLsb' 64 64

/-- `lo(v) = v[63:0]` (R10). -/
def loWord (v : Wide) : Word := v.extractLsb' 0 64

/-- `{h, l}`, the value `h * 2^64 + l` (R10). -/
def joinWords (h l : Word) : Wide := h ++ l

/-- A truth value as a result: 1 or 0 (40_compare.md R101). -/
def truthValue (b : Bool) : Wide := if b then 1 else 0

/-- `compare(a, b)`, lexicographic on `(hi, lo)` with unsigned word comparisons (40_compare.md R107). -/
def compareWide (a b : Wide) : Ordering :=
  if hiWord a < hiWord b then .lt
  else if hiWord b < hiWord a then .gt
  else if loWord a < loWord b then .lt
  else if loWord b < loWord a then .gt
  else .eq

/-- Addition with the carry of the low word; the carry out of the high word is discarded (R120). -/
def add128 (a b : Wide) : Wide :=
  let sl := loWord a + loWord b
  let carry : Word := if sl < loWord a then 1 else 0
  joinWords (hiWord a + hiWord b + carry) sl

/-- Subtraction with the borrow of the low word; the borrow out of the high word is discarded (R122). -/
def sub128 (a b : Wide) : Wide :=
  let dl := loWord a - loWord b
  let borrow : Word := if loWord a < loWord b then 1 else 0
  joinWords (hiWord a - hiWord b - borrow) dl

/-- Increment (R124). -/
def inc128 (a : Wide) : Wide :=
  let c : Word := if loWord a = BitVec.allOnes 64 then 1 else 0
  joinWords (hiWord a + c) (loWord a + 1)

/-- Decrement (R125). -/
def dec128 (a : Wide) : Wide :=
  let bw : Word := if loWord a = 0 then 1 else 0
  joinWords (hiWord a - bw) (loWord a - 1)

/-- Negation, the "i.e." form that 90_conflicts.md C3 chooses (R126). -/
def neg128 (a : Wide) : Wide :=
  let l := 0 - loWord a
  let h := 0 - hiWord a
  joinWords (if loWord a ≠ 0 then h - 1 else h) l

/-- The low 128 bits of the product: the exact product of the low words and the truncated cross terms (R140). -/
def mul128 (a b : Wide) : Wide :=
  let p : Wide := (loWord a).setWidth 128 * (loWord b).setWidth 128
  joinWords (hiWord p + hiWord a * loWord b + loWord a * hiWord b) (loWord p)

/-- Word-wise and (R150). -/
def and128 (a b : Wide) : Wide := joinWords (hiWord a &&& hiWord b) (loWord a &&& loWord b)

/-- Word-wise or (R151). -/
def or128 (a b : Wide) : Wide := joinWords (hiWord a ||| hiWord b) (loWord a ||| loWord b)

/-- Word-wise exclusive or (R152). -/
def xor128 (a b : Wide) : Wide := joinWords (hiWord a ^^^ hiWord b) (loWord a ^^^ loWord b)

/-- Word-wise complement (R153). -/
def not128 (a : Wide) : Wide := joinWords (~~~ hiWord a) (~~~ loWord a)

/-- Left shift; every word shift is by an amount in [1, 63] (R155, R159). -/
def shl128 (a : Wide) (n : Nat) : Wide :=
  if n = 0 then a
  else if n < 64 then
    joinWords ((loWord a >>> (64 - n)) ||| (hiWord a <<< n)) (loWord a <<< n)
  else if n = 64 then joinWords (loWord a) 0
  else if n < 128 then joinWords (loWord a <<< (n - 64)) 0
  else 0

/-- Logical right shift, the mirror of `shl128` (R157). -/
def shr128 (a : Wide) (n : Nat) : Wide :=
  if n = 0 then a
  else if n < 64 then
    joinWords (hiWord a >>> n) ((hiWord a <<< (64 - n)) ||| (loWord a >>> n))
  else if n = 64 then joinWords 0 (hiWord a)
  else if n < 128 then joinWords 0 (hiWord a >>> (n - 64))
  else 0

/-- The 1-based index of the highest set bit among bits `k - 1` down to 0 of a word, 0 if none is set. -/
def highestSetBelow (w : Word) : Nat → Nat
  | 0 => 0
  | k + 1 => if w.getLsbD k then k + 1 else highestSetBelow w k

/-- The 1-based index of the lowest set bit among the `k` highest bits of a word, 0 if none is set. -/
def lowestSetAmongTop (w : Word) : Nat → Nat
  | 0 => 0
  | k + 1 => if w.getLsbD (63 - k) then 64 - k else lowestSetAmongTop w k

/-- `bitlen64(w)` (44_bitlen.md R173). -/
def bitlen64 (w : Word) : Nat := highestSetBelow w 64

/-- `lowidx64(w)` (44_bitlen.md R173). -/
def lowidx64 (w : Word) : Nat := lowestSetAmongTop w 64

/-- `bitlen(a)`, by which word is nonzero (44_bitlen.md R173). -/
def bitlen (a : Wide) : Nat :=
  if hiWord a ≠ 0 then 64 + bitlen64 (hiWord a) else bitlen64 (loWord a)

/-- `lowidx(a)`, by which word is nonzero (44_bitlen.md R173). -/
def lowidx (a : Wide) : Nat :=
  if loWord a ≠ 0 then lowidx64 (loWord a)
  else if hiWord a ≠ 0 then 64 + lowidx64 (hiWord a)
  else 0

/-- The number of set bits among bits `k - 1` down to 0. -/
def setBitsBelow (a : Wide) : Nat → Nat
  | 0 => 0
  | k + 1 => setBitsBelow a k + (a.getLsbD k).toNat

/-- The number of set bits of a value (44_bitlen.md R172). -/
def popcount128 (a : Wide) : Nat := setBitsBelow a 128

/-- `zext_128` of a count (00_scope.md R11; 44_bitlen.md R170-R172). -/
def countValue (n : Nat) : Wide := BitVec.ofNat 128 n

/-- `beByte(v, i) = v[8(15 - i) + 7 : 8(15 - i)]` (47_bytecodec.md R230). -/
def beByte (v : Wide) (i : Nat) : Byte := v.extractLsb' (8 * (15 - i)) 8

/-- `leByte(v, i) = v[8i + 7 : 8i]` (47_bytecodec.md R231). -/
def leByte (v : Wide) (i : Nat) : Byte := v.extractLsb' (8 * i) 8

/-- The sum over i of byte i times `2^(place i)`, for the bytes from position `i` on. -/
def placeValue (place : Nat → Nat) (i : Nat) : List Byte → Wide
  | [] => 0
  | b :: bs => (b.setWidth 128 <<< place i) + placeValue place (i + 1) bs

/-- The big-endian value of 16 bytes (47_bytecodec.md R234). -/
def beValue (bs : List Byte) : Wide := placeValue (fun i => 8 * (15 - i)) 0 bs

/-- The little-endian value of 16 bytes (47_bytecodec.md R235). -/
def leValue (bs : List Byte) : Wide := placeValue (fun i => 8 * i) 0 bs

end Sys2Proof.Machine
end

