-- ==== Sys2Proof/Machine/Ops.lean ====
section
/-! DEFINITION. The named operations over BUF and the registers: reads and writes of a byte, writes of R and R2,
the start and the completion of a command (30_encoding.md R91, R92) with the recording of a failure, which is the
one thing this block has in the place of an exception entry (60_exceptions.md R250, R256: nothing is saved, nothing
is vectored, and there is no return, R257), and the reset event (70_reset_and_hazards.md R280). -/

namespace Sys2Proof.Machine

/-- `MemRead(i, 1)` (00_scope.md R12): the byte at `i`, none if it is UNWRITTEN. -/
def Memory.read : Memory → Nat → Option Byte
  | [], _ => none
  | (j, v) :: m, i => if i = j then some v else Memory.read m i

/-- `MemWrite(i, 1, v)` (00_scope.md R12), keeping addresses rising. -/
def Memory.write : Memory → Nat → Byte → Memory
  | [], i, v => [(i, v)]
  | (j, w) :: m, i, v =>
    if i < j then (i, v) :: (j, w) :: m
    else if i = j then (i, v) :: m
    else (j, w) :: Memory.write m i v

/-- Whether every address of the list is above `lo` or equal to it, below 16, and the addresses rise. -/
def Memory.wfFrom : Nat → Memory → Bool
  | _, [] => true
  | low, (j, _) :: m => decide (low ≤ j) && decide (j < Config.bufBytes) && Memory.wfFrom (j + 1) m

/-- The canonical form: addresses strictly rising, each below 16. Every listed cell holds a value, so no entry
equals what an unlisted address reads as. -/
def Memory.wf (m : Memory) : Bool := Memory.wfFrom 0 m

/-- The bytes at `i`, `i + 1`, ..., `n` of them, if every one is written. -/
def Memory.readRun (m : Memory) (i : Nat) : Nat → Option (List Byte)
  | 0 => some []
  | n + 1 =>
    match m.read i, Memory.readRun m (i + 1) n with
    | some b, some bs => some (b :: bs)
    | _, _ => none

/-- `R <- v`, both halves in one step (00_scope.md R12). -/
def State.setR (s : State) (v : Wide) : State :=
  { s with rHi := some (hiWord v), rLo := some (loWord v) }

/-- `R2 <- v`, both halves in one step (00_scope.md R12). -/
def State.setR2 (s : State) (v : Wide) : State :=
  { s with r2Hi := some (hiWord v), r2Lo := some (loWord v) }

/-- `R <- UNWRITTEN ; R2 <- UNWRITTEN` (30_encoding.md R92). -/
def State.clearResults (s : State) : State :=
  { s with rHi := none, rLo := none, r2Hi := none, r2Lo := none }

/-- `STATUS <- v` and `pending <- none`, the end of every completion (30_encoding.md R92). -/
def State.finish (s : State) (v : Byte) : State :=
  { s with status := v, pending := none }

/-- The division engine's working registers as a division leaves them (log entry 4). -/
def State.setWork (s : State) (w : DivWork) : State := { s with divWork := w }

/-- The byte writes of a command, in order. -/
def State.storeBytes (s : State) (cells : List Host.Cell) : State :=
  { s with buf := cells.foldl (fun m c => m.write c.1 c.2) s.buf }

/-- What a successful command writes (30_encoding.md R92 "Ok(writes)"): R, R2, bytes of BUF; and, unobserved, the
division working registers. -/
structure Writes where
  r : Option Wide := none
  r2 : Option Wide := none
  bytes : List Host.Cell := []
  work : Option DivWork := none
deriving DecidableEq, Repr

/-- The outcome of a command (60_exceptions.md R250). -/
inductive CommandOutcome where
  | ok (w : Writes)
  | fail (c : FailCode)
deriving DecidableEq, Repr

/-- A value for R, if the command writes it. -/
def State.putR (s : State) : Option Wide → State
  | none => s
  | some v => s.setR v

/-- A value for R2, if the command writes it. -/
def State.putR2 (s : State) : Option Wide → State
  | none => s
  | some v => s.setR2 v

/-- Working registers, if the command used the division engine. -/
def State.putWork (s : State) : Option DivWork → State
  | none => s
  | some w => s.setWork w

/-- The writes of a successful command. -/
def State.applyWrites (s : State) (w : Writes) : State :=
  (((s.putR w.r).putR2 w.r2).storeBytes w.bytes).putWork w.work

/-- A command that ends without failure (30_encoding.md R92): its writes, STATUS 0x02, nothing in flight. -/
def State.succeed (s : State) (w : Writes) : State := (s.applyWrites w).finish statusOk

/-- Recording a failure (30_encoding.md R92, 60_exceptions.md R253): R and R2 UNWRITTEN, STATUS `code << 2`, nothing
in flight; A, B and BUF unchanged. -/
def State.failWith (s : State) (c : FailCode) : State := s.clearResults.finish (statusFail c)

/-- The completion with an outcome, one atomic step (30_encoding.md R92). -/
def State.complete (s : State) : CommandOutcome → State
  | .ok w => s.succeed w
  | .fail c => s.failWith c

/-- The start of a command (30_encoding.md R91): `pending <- some c`, STATUS 0x01. Nothing else of the block changes;
the model draws the command's LATENCY (00_scope.md R9), which may depend on the opcode and on the operands
(70_reset_and_hazards.md R291); that it is drawn here, and from these arguments, is the model's choice (log entry 1). -/
def State.startCommand (s : State) (c : Byte) : State :=
  { s with
    pending := some c
    status := statusBusy
    wait := Config.latency s.draws c s.aLo s.aHi s.bLo s.bHi s.buf
    draws := s.draws + 1 }

/-- The data word of a host read is returned (30_encoding.md R83); nothing of the block changes (20_memory.md R56). -/
def State.reply (s : State) (v : Word) : State := { s with replies := v :: s.replies }

/-- The reset event (70_reset_and_hazards.md R280, R281): every piece of the block's state takes its reset value, a
command in flight is abandoned, a recorded fault stays. The host's own queue and the words it has read are the
host's, not the block's, and stay; so does the count of draws (log entry 13). -/
def State.resetEvent (s : State) : State :=
  { State.reset with
    fault := s.fault
    draws := s.draws
    host := s.host
    replies := s.replies }

/-- Recording a model fault (60_exceptions.md R262, R263, 10_state.md R36): the first one stays. -/
def State.recordFault (s : State) (r : Fault) : State :=
  match s.fault with
  | some _ => s
  | none => { s with fault := some r }

end Sys2Proof.Machine
end

