-- ==== Sys2Proof/Machine/Operands.lean ====
section
/-! DEFINITION. Operands: the 128-bit registers as commands read them, BUF's 16 bytes, the host's register index map
(20_memory.md R51), what each command reads and writes (30_encoding.md R82), and the shared shapes of a command:
an UNWRITTEN operand is a model fault before anything else (30_encoding.md R92, 60_exceptions.md R255). -/

namespace Sys2Proof.Machine

/-- `{hi, lo}` of two halves, none if either is UNWRITTEN (00_scope.md R10, 10_state.md R25). -/
def wideOf : Option Word → Option Word → Option Wide
  | some h, some l => some (joinWords h l)
  | _, _ => none

/-- Operand A (10_state.md R22). -/
def State.operandA (s : State) : Option Wide := wideOf s.aHi s.aLo

/-- Operand B (10_state.md R23). -/
def State.operandB (s : State) : Option Wide := wideOf s.bHi s.bLo

/-- The value of R (10_state.md R24). -/
def State.resultR (s : State) : Option Wide := wideOf s.rHi s.rLo

/-- The value of R2 (10_state.md R26). -/
def State.resultR2 (s : State) : Option Wide := wideOf s.r2Hi s.r2Lo

/-- The 16 bytes of BUF, if every one is written (10_state.md R33). -/
def State.operandBuf (s : State) : Option (List Byte) := s.buf.readRun 0 Config.bufBytes

/-- A command that reads A (30_encoding.md R92). -/
def onA (s : State) (f : Wide → CommandOutcome) : Result :=
  match s.operandA with
  | some a => .next (s.complete (f a))
  | none => .fault .unwrittenRead

/-- A command that reads A and B (30_encoding.md R92). -/
def onAB (s : State) (f : Wide → Wide → CommandOutcome) : Result :=
  match s.operandA, s.operandB with
  | some a, some b => .next (s.complete (f a b))
  | _, _ => .fault .unwrittenRead

/-- A command that reads BUF (30_encoding.md R92). -/
def onBuf (s : State) (f : List Byte → CommandOutcome) : Result :=
  match s.operandBuf with
  | some bs => .next (s.complete (f bs))
  | none => .fault .unwrittenRead

/-- The outcome `Ok(R <- v)`. -/
def okR (v : Wide) : CommandOutcome := .ok { r := some v }

/-- The registers of the host's space (20_memory.md R51). -/
inductive Reg where
  | aLo | aHi | bLo | bHi | rLo | rHi | r2Lo | r2Hi | status | cmd
  | buf (i : BitVec 4)
deriving DecidableEq, Repr

/-- The register of an index; none for the reserved indices 0x0A .. 0x0F (20_memory.md R51). -/
def regOfIndex (i : BitVec 5) : Option Reg :=
  if i.getLsbD 4 then some (.buf (i.extractLsb' 0 4))
  else
    match i.toNat with
    | 0x00 => some .aLo
    | 0x01 => some .aHi
    | 0x02 => some .bLo
    | 0x03 => some .bHi
    | 0x04 => some .rLo
    | 0x05 => some .rHi
    | 0x06 => some .r2Lo
    | 0x07 => some .r2Hi
    | 0x08 => some .status
    | 0x09 => some .cmd
    | _ => none

/-- The index of a register (20_memory.md R51). -/
def Reg.index : Reg → BitVec 5
  | .aLo => 0x00
  | .aHi => 0x01
  | .bLo => 0x02
  | .bHi => 0x03
  | .rLo => 0x04
  | .rHi => 0x05
  | .r2Lo => 0x06
  | .r2Hi => 0x07
  | .status => 0x08
  | .cmd => 0x09
  | .buf i => 0b1#1 ++ i

/-- Whether the host may write the register (20_memory.md R51). -/
def Reg.writable : Reg → Bool
  | .aLo | .aHi | .bLo | .bHi => true
  | .rLo | .rHi | .r2Lo | .r2Hi => false
  | .status => false
  | .cmd => true
  | .buf _ => true

/-- Whether the register is 8 bits wide (20_memory.md R53). -/
def Reg.narrow : Reg → Bool
  | .aLo | .aHi | .bLo | .bHi => false
  | .rLo | .rHi | .r2Lo | .r2Hi => false
  | .status => true
  | .cmd => true
  | .buf _ => true

/-- Whether a host read is refused while BUSY (20_memory.md R52). -/
def Reg.hiddenWhileBusy : Reg → Bool
  | .aLo | .aHi | .bLo | .bHi => false
  | .rLo | .rHi | .r2Lo | .r2Hi => true
  | .status => false
  | .cmd => false
  | .buf _ => true

/-- What a host read of the register returns, zero-extended; none if it is UNWRITTEN. CMD reads as 0x00
(10_state.md R32, 20_memory.md R54). -/
def State.readReg (s : State) : Reg → Option Word
  | .aLo => s.aLo
  | .aHi => s.aHi
  | .bLo => s.bLo
  | .bHi => s.bHi
  | .rLo => s.rLo
  | .rHi => s.rHi
  | .r2Lo => s.r2Lo
  | .r2Hi => s.r2Hi
  | .status => some (s.status.setWidth 64)
  | .cmd => some 0
  | .buf i => (s.buf.read i.toNat).map (fun b => b.setWidth 64)

/-- A host write of a writable register (20_memory.md R56): CMD starts a command, any other stores the value at its
width and does nothing else. The read-only registers are never written (`execHwr` faults first). -/
def State.writeReg (s : State) (r : Reg) (v : Word) : State :=
  match r with
  | .aLo => { s with aLo := some v }
  | .aHi => { s with aHi := some v }
  | .bLo => { s with bLo := some v }
  | .bHi => { s with bHi := some v }
  | .rLo | .rHi | .r2Lo | .r2Hi | .status => s
  | .cmd => s.startCommand (v.setWidth 8)
  | .buf i => { s with buf := s.buf.write i.toNat (v.setWidth 8) }

/-- The places a command reads or writes (30_encoding.md R82). -/
inductive Place where
  | a | b | r | r2 | buf
deriving DecidableEq, Repr

/-- The "reads" column of 30_encoding.md R82; a transaction reads no operand. -/
def readsOf : Instr → List Place
  | .cmp | .eq | .ne | .lt | .le | .gt | .ge => [.a, .b]
  | .add | .sub => [.a, .b]
  | .inc | .dec | .neg => [.a]
  | .mul => [.a, .b]
  | .and | .or | .xor => [.a, .b]
  | .not => [.a]
  | .shl | .shr => [.a, .b]
  | .msbidx | .lsbidx | .popcnt => [.a]
  | .divmod | .rdiv => [.a, .b]
  | .encbe | .encle => [.a]
  | .decbe | .decle => [.buf]
  | .hwr _ _ => []
  | .hrd _ => []

/-- The "writes on success" column of 30_encoding.md R82. -/
def writesOf : Instr → List Place
  | .cmp | .eq | .ne | .lt | .le | .gt | .ge => [.r]
  | .add | .sub | .inc | .dec | .neg => [.r]
  | .mul => [.r]
  | .and | .or | .xor | .not | .shl | .shr => [.r]
  | .msbidx | .lsbidx | .popcnt => [.r]
  | .divmod | .rdiv => [.r, .r2]
  | .encbe | .encle => [.buf]
  | .decbe | .decle => [.r]
  | .hwr _ _ => []
  | .hrd _ => []

/-- Whether every half, or every byte, of a place is written (10_state.md R25). -/
def State.written (s : State) : Place → Bool
  | .a => s.operandA.isSome
  | .b => s.operandB.isSome
  | .r => s.resultR.isSome
  | .r2 => s.resultR2.isSome
  | .buf => s.operandBuf.isSome

end Sys2Proof.Machine
end

