-- ==== Sys2Proof/Machine/AddSub.lean ====
section
/-! DEFINITION. The adder and subtractor: ADD, SUB, INC, DEC, NEG (41_add_sub.md). -/

namespace Sys2Proof.Machine

/-- ADD (R121). -/
def execAdd (s : State) : Result := onAB s fun a b => okR (add128 a b)

/-- SUB (R123). -/
def execSub (s : State) : Result := onAB s fun a b => okR (sub128 a b)

/-- INC (R124). -/
def execInc (s : State) : Result := onA s fun a => okR (inc128 a)

/-- DEC (R125). -/
def execDec (s : State) : Result := onA s fun a => okR (dec128 a)

/-- NEG (R126). -/
def execNeg (s : State) : Result := onA s fun a => okR (neg128 a)

end Sys2Proof.Machine
end

