-- ==== Sys2Proof/Machine/BitLen.lean ====
section
/-! DEFINITION. The bit-length and popcount unit: MSBIDX, LSBIDX, POPCNT (44_bitlen.md). -/

namespace Sys2Proof.Machine

/-- MSBIDX (R170). -/
def execMsbidx (s : State) : Result := onA s fun a => okR (countValue (bitlen a))

/-- LSBIDX (R171). -/
def execLsbidx (s : State) : Result := onA s fun a => okR (countValue (lowidx a))

/-- POPCNT (R172). -/
def execPopcnt (s : State) : Result := onA s fun a => okR (countValue (popcount128 a))

end Sys2Proof.Machine
end

