-- ==== Sys2Proof/Machine/BitwiseShift.lean ====
section
/-! DEFINITION. The bitwise unit and the barrel shifter: AND, OR, XOR, NOT, SHL, SHR (43_bitwise_shift.md). -/

namespace Sys2Proof.Machine

/-- AND (R150). -/
def execAnd (s : State) : Result := onAB s fun a b => okR (and128 a b)

/-- OR (R151). -/
def execOr (s : State) : Result := onAB s fun a b => okR (or128 a b)

/-- XOR (R152). -/
def execXor (s : State) : Result := onAB s fun a b => okR (xor128 a b)

/-- NOT (R153). -/
def execNot (s : State) : Result := onA s fun a => okR (not128 a)

/-- SHL by the whole 128-bit value of B (R154, R156). -/
def execShl (s : State) : Result := onAB s fun a b => okR (shl128 a b.toNat)

/-- SHR by the whole 128-bit value of B (R154, R158). -/
def execShr (s : State) : Result := onAB s fun a b => okR (shr128 a b.toNat)

end Sys2Proof.Machine
end

