-- ==== Sys2Proof/Machine/ByteCodec.lean ====
section
/-! DEFINITION. The endian-aware byte encoder and decoder: ENCBE, ENCLE, DECBE, DECLE (47_bytecodec.md). -/

namespace Sys2Proof.Machine

/-- The 16 byte writes `for i in 0..15: MemWrite(i, 1, f i)`. -/
def bytesOf (f : Nat → Byte) : List Host.Cell := (List.range Config.bufBytes).map fun i => (i, f i)

/-- ENCBE (R232). -/
def execEncbe (s : State) : Result := onA s fun a => .ok { bytes := bytesOf (beByte a) }

/-- ENCLE (R233). -/
def execEncle (s : State) : Result := onA s fun a => .ok { bytes := bytesOf (leByte a) }

/-- DECBE (R234). -/
def execDecbe (s : State) : Result := onBuf s fun bs => okR (beValue bs)

/-- DECLE (R235). -/
def execDecle (s : State) : Result := onBuf s fun bs => okR (leValue bs)

end Sys2Proof.Machine
end

