-- ==== Sys2Proof/Machine/Compare.lean ====
section
/-! DEFINITION. The comparator: CMP, EQ, NE, LT, LE, GT, GE (40_compare.md). -/

namespace Sys2Proof.Machine

/-- The pattern of `{-1, 0, 1}` in R (40_compare.md R100, decision D12). -/
def orderPattern : Ordering → Wide
  | .lt => wideMax
  | .eq => 0
  | .gt => 1

/-- CMP (R100). -/
def execCmp (s : State) : Result := onAB s fun a b => okR (orderPattern (compareWide a b))

/-- EQ (R101). -/
def execEq (s : State) : Result := onAB s fun a b => okR (truthValue (compareWide a b == .eq))

/-- NE (R102). -/
def execNe (s : State) : Result := onAB s fun a b => okR (truthValue (compareWide a b != .eq))

/-- LT (R103). -/
def execLt (s : State) : Result := onAB s fun a b => okR (truthValue (compareWide a b == .lt))

/-- LE (R104). -/
def execLe (s : State) : Result := onAB s fun a b => okR (truthValue (compareWide a b != .gt))

/-- GT (R105). -/
def execGt (s : State) : Result := onAB s fun a b => okR (truthValue (compareWide a b == .gt))

/-- GE (R106). -/
def execGe (s : State) : Result := onAB s fun a b => okR (truthValue (compareWide a b != .lt))

end Sys2Proof.Machine
end

