-- ==== Sys2Proof/Machine/Divide.lean ====
section
/-! DEFINITION. The long-division engine: the loop of 45_divide.md R182 and DIVMOD (R180). -/

namespace Sys2Proof.Machine

/-- Steps 2 and 3 of the loop: the shift distance and the working registers before the first test (R182). -/
def divStart (n d : Wide) : DivWork where
  rem := n
  trial := shl128 d (bitlen n - bitlen d)
  quot := 0
  shift := BitVec.ofNat 7 (bitlen n - bitlen d)

/-- The test of one iteration: if the trial divisor fits, set the quotient bit and subtract (R182 step 4). -/
def divTest (w : DivWork) : DivWork :=
  if w.trial ≤ w.rem then { w with quot := w.quot ||| 1, rem := sub128 w.rem w.trial } else w

/-- The move to the next iteration: quotient left, trial right, counter down (R182 step 4). -/
def divAdvance (w : DivWork) : DivWork where
  rem := w.rem
  trial := shr128 w.trial 1
  quot := shl128 w.quot 1
  shift := w.shift - 1

/-- The loop from a shift counter of `k` down to 0: `k + 1` iterations (R182, R184). -/
def divRun : Nat → DivWork → DivWork
  | 0, w => divTest w
  | k + 1, w => divRun k (divAdvance (divTest w))

/-- The engine's working registers after a division, none if step 1 answers without them (R182). -/
def divEngine (n d : Wide) : Option DivWork :=
  if n < d then none else some (divRun (bitlen n - bitlen d) (divStart n d))

/-- `divloop(n, d) = (quotient, remainder)`, for `d` not 0 (R182). -/
def divloop (n d : Wide) : Wide × Wide :=
  match divEngine n d with
  | none => (0, n)
  | some w => (w.quot, w.rem)

/-- How many iterations the loop makes (R184): none when `n < d`. -/
def divIterations (n d : Wide) : Nat :=
  if n < d then 0 else bitlen n - bitlen d + 1

/-- The outcome of a division by a divisor that is not 0: quotient to R, remainder to R2. -/
def divOutcome (n d : Wide) : CommandOutcome :=
  .ok { r := some (divloop n d).1, r2 := some (divloop n d).2, work := divEngine n d }

/-- DIVMOD (R180); B = 0 fails with DIVZ (R181). -/
def execDivmod (s : State) : Result :=
  onAB s fun a b => if b = 0 then .fail .divz else divOutcome a b

end Sys2Proof.Machine
end

