-- ==== Sys2Proof/Machine/HostPort.lean ====
section
/-! DEFINITION. The host's transactions: HWR and HRD (30_encoding.md R86, 20_memory.md R51-R54). -/

namespace Sys2Proof.Machine

/-- HWR (R86): a reserved or read-only index, data bits 63:8 set for an 8-bit register, or BUSY is a HOST_PROTOCOL
fault; else the write. A header with H[6:5] set does not decode and faults where it is fetched. -/
def execHwr (index : BitVec 5) (data : Word) (s : State) : Result :=
  match regOfIndex index with
  | none => .fault .hostProtocol
  | some r =>
    if !r.writable || (r.narrow && decide (data.extractLsb' 8 56 ≠ 0)) || s.busy then
      .fault .hostProtocol
    else .next (s.writeReg r data)

/-- HRD (R86): a reserved index, or a hidden register while BUSY, is a HOST_PROTOCOL fault; an UNWRITTEN register is
an UNWRITTEN_READ fault; else its value, zero-extended to 64 bits, is returned. -/
def execHrd (index : BitVec 5) (s : State) : Result :=
  match regOfIndex index with
  | none => .fault .hostProtocol
  | some r =>
    if s.busy && r.hiddenWhileBusy then .fault .hostProtocol
    else
      match s.readReg r with
      | some v => .next (s.reply v)
      | none => .fault .unwrittenRead

end Sys2Proof.Machine
end

