-- ==== Sys2Proof/Machine/Multiply.lean ====
section
/-! DEFINITION. The multiplier: MUL (42_multiply.md). -/

namespace Sys2Proof.Machine

/-- MUL (R141). -/
def execMul (s : State) : Result := onAB s fun a b => okR (mul128 a b)

end Sys2Proof.Machine
end

