-- ==== Sys2Proof/Machine/Radix.lean ====
section
/-! DEFINITION. The radix-convert divider: the radix check and RDIV (46_radix.md section 1). -/

namespace Sys2Proof.Machine

/-- A radix is valid exactly when it is in [2, 64] (R201). -/
def radixValid (b : Wide) : Bool :=
  decide (Config.radixMin ≤ b.toNat) && decide (b.toNat ≤ Config.radixMax)

/-- RDIV (R200): the division of R183, or BADRADIX. The radix-16 path of R202 gives the same values and is not
taken apart here (log entry 5). -/
def execRdiv (s : State) : Result :=
  onAB s fun a b => if radixValid b then divOutcome a b else .fail .badradix

end Sys2Proof.Machine
end

