-- ==== Sys2Proof/Machine/Dispatch.lean ====
section
/-! DEFINITION. The dispatch: one arm per constructor of Instr, each one direct call of its meaning. For a command
the meaning is its completion (30_encoding.md R92), for a transaction its effect (R86). -/

namespace Sys2Proof.Machine

open Sys2Proof

def exec (i : Instr) (s : State) : Host.Outcome State Fault Refusal :=
  match i with
  | .cmp => Sys2Proof.Machine.execCmp s
  | .eq => Sys2Proof.Machine.execEq s
  | .ne => Sys2Proof.Machine.execNe s
  | .lt => Sys2Proof.Machine.execLt s
  | .le => Sys2Proof.Machine.execLe s
  | .gt => Sys2Proof.Machine.execGt s
  | .ge => Sys2Proof.Machine.execGe s
  | .add => Sys2Proof.Machine.execAdd s
  | .sub => Sys2Proof.Machine.execSub s
  | .inc => Sys2Proof.Machine.execInc s
  | .dec => Sys2Proof.Machine.execDec s
  | .neg => Sys2Proof.Machine.execNeg s
  | .mul => Sys2Proof.Machine.execMul s
  | .and => Sys2Proof.Machine.execAnd s
  | .or => Sys2Proof.Machine.execOr s
  | .xor => Sys2Proof.Machine.execXor s
  | .not => Sys2Proof.Machine.execNot s
  | .shl => Sys2Proof.Machine.execShl s
  | .shr => Sys2Proof.Machine.execShr s
  | .msbidx => Sys2Proof.Machine.execMsbidx s
  | .lsbidx => Sys2Proof.Machine.execLsbidx s
  | .popcnt => Sys2Proof.Machine.execPopcnt s
  | .divmod => Sys2Proof.Machine.execDivmod s
  | .rdiv => Sys2Proof.Machine.execRdiv s
  | .encbe => Sys2Proof.Machine.execEncbe s
  | .encle => Sys2Proof.Machine.execEncle s
  | .decbe => Sys2Proof.Machine.execDecbe s
  | .decle => Sys2Proof.Machine.execDecle s
  | .hwr index data => Sys2Proof.Machine.execHwr index data s
  | .hrd index => Sys2Proof.Machine.execHrd index s

end Sys2Proof.Machine
end

