-- ==== Sys2Proof/WellFormed.lean ====
section
/-! DEFINITION. Which instructions the spec gives an effect in some state: every command, and every transaction
that no state-independent rule makes a protocol violation (20_memory.md R51, R54). -/

namespace Sys2Proof

/-- The reserved register indices 0x0A .. 0x0F (20_memory.md R51, 93 RS2). -/
def indexReserved (i : BitVec 5) : Bool :=
  decide (0x0A ≤ i.toNat) && decide (i.toNat ≤ 0x0F)

/-- The read-only indices: the R halves, the R2 halves and STATUS (20_memory.md R51). -/
def indexReadOnly (i : BitVec 5) : Bool :=
  decide (0x04 ≤ i.toNat) && decide (i.toNat ≤ 0x08)

/-- The indices of 8-bit registers: STATUS, CMD and BUF (20_memory.md R53). -/
def indexNarrow (i : BitVec 5) : Bool :=
  decide (i.toNat = 0x08) || decide (i.toNat = 0x09) || decide (0x10 ≤ i.toNat)

/-- A write is well formed if its register exists and is writable and, for an 8-bit register, data bits 63:8
are zero (R51, R54); a read is well formed if its register exists. Commands have no field to check. -/
def Instr.wellFormed : Instr → Bool
  | .hwr i d => !indexReserved i && !indexReadOnly i && (!indexNarrow i || decide (d.toNat < 256))
  | .hrd i => !indexReserved i
  | .cmp | .eq | .ne | .lt | .le | .gt | .ge => true
  | .add | .sub | .inc | .dec | .neg => true
  | .mul => true
  | .and | .or | .xor | .not | .shl | .shr => true
  | .msbidx | .lsbidx | .popcnt => true
  | .divmod | .rdiv => true
  | .encbe | .encle | .decbe | .decle => true

end Sys2Proof
end

