-- ==== Sys2Proof/Decode.lean ====
section
/-! DEFINITION. Decoding, total on every command word and every transaction (30_encoding.md R83, R85),
rejecting by name; then the encoder, written apart from the decoder from the same tables. -/

namespace Sys2Proof

/-- Why a code is no instruction. -/
inductive Reject where
  /-- A CMD value outside the opcode map (30_encoding.md R84): the command completes with ILLOP. -/
  | reservedOpcode
  /-- A header with H[6:5] other than 00 (30_encoding.md R83): a HOST_PROTOCOL model fault. -/
  | reservedHeaderBits
deriving DecidableEq, Repr

/-- The decoder's answer. -/
inductive Decoded where
  | instr (i : Instr)
  | reject (r : Reject)
deriving DecidableEq, Repr

/-- The instruction of an answer, if it is one. -/
def Decoded.instr? : Decoded → Option Instr
  | .instr i => some i
  | .reject _ => none

/-- The opcode map of 30_encoding.md R82, in its order; a row is selected by all eight bits. -/
def opcodeMap : List (Byte × Instr) :=
  [ (0x10, .cmp), (0x11, .eq), (0x12, .ne), (0x13, .lt), (0x14, .le), (0x15, .gt), (0x16, .ge),
    (0x20, .add), (0x21, .sub), (0x22, .inc), (0x23, .dec), (0x24, .neg),
    (0x30, .mul),
    (0x40, .and), (0x41, .or), (0x42, .xor), (0x43, .not), (0x48, .shl), (0x49, .shr),
    (0x50, .msbidx), (0x51, .lsbidx), (0x52, .popcnt),
    (0x60, .divmod), (0x70, .rdiv),
    (0x80, .encbe), (0x81, .encle), (0x82, .decbe), (0x83, .decle) ]

/-- R85: each value of the opcode map is its operation, every other value is reserved. -/
def decodeCommand (c : Byte) : Decoded :=
  match opcodeMap.lookup c with
  | some i => .instr i
  | none => .reject .reservedOpcode

/-- R83: H[7] is 1 for a write and 0 for a read, H[6:5] must be 00, H[4:0] is the register index. The data word
of a read is what the block returns, so the word the host side carries is not looked at (log entry 11). -/
def decodeTransaction (h : Byte) (d : Word) : Decoded :=
  if h.extractLsb' 5 2 ≠ 0 then .reject .reservedHeaderBits
  else if h.getLsbD 7 then .instr (.hwr (h.extractLsb' 0 5) d)
  else .instr (.hrd (h.extractLsb' 0 5))

/-- Decoding of a code by the place it arrives at. -/
def decode : Code → Decoded
  | .command c => decodeCommand c
  | .transaction h d => decodeTransaction h d

/-- The header of a write: W = 1, 00, index (R83). -/
def writeHeader (i : BitVec 5) : Byte := (0b100#3 ++ i : BitVec 8)

/-- The header of a read: W = 0, 00, index (R83). -/
def readHeader (i : BitVec 5) : Byte := (0b000#3 ++ i : BitVec 8)

/-- The encoder: a command is its opcode, a write carries its data word, a read carries a zero word (the lane
is the block's to fill). -/
def encode : Instr → Code
  | .hwr i d => .transaction (writeHeader i) d
  | .hrd i => .transaction (readHeader i) 0
  | .cmp => .command 0x10
  | .eq => .command 0x11
  | .ne => .command 0x12
  | .lt => .command 0x13
  | .le => .command 0x14
  | .gt => .command 0x15
  | .ge => .command 0x16
  | .add => .command 0x20
  | .sub => .command 0x21
  | .inc => .command 0x22
  | .dec => .command 0x23
  | .neg => .command 0x24
  | .mul => .command 0x30
  | .and => .command 0x40
  | .or => .command 0x41
  | .xor => .command 0x42
  | .not => .command 0x43
  | .shl => .command 0x48
  | .shr => .command 0x49
  | .msbidx => .command 0x50
  | .lsbidx => .command 0x51
  | .popcnt => .command 0x52
  | .divmod => .command 0x60
  | .rdiv => .command 0x70
  | .encbe => .command 0x80
  | .encle => .command 0x81
  | .decbe => .command 0x82
  | .decle => .command 0x83

/-- The opcode of a command, none for a transaction. -/
def opcodeOf (i : Instr) : Option Byte :=
  match encode i with
  | .command c => some c
  | .transaction _ _ => none

/-- The code a table row's bits stand for. Bits 7:0 are the first byte, bits 71:8 the data word of a transaction.
A word of at most 8 bits is a command if its value is in the opcode map, else a transaction with data 0: the
table lists both formats in 8 bits, and some bit patterns are both (log entry 9). -/
def tableCode (nbits w : Nat) : Code :=
  let first : Byte := BitVec.ofNat 8 w
  if nbits ≤ 8 then
    match decodeCommand first with
    | .instr _ => .command first
    | .reject _ => .transaction first 0
  else .transaction first (BitVec.ofNat 64 (w / 256))

/-- The instruction the decoder reads from an instruction whose bits are `w`, numbered as
spec/opcode_table.json numbers them (log entry 9). -/
def decodeTableWord (nbits w : Nat) : Option Instr :=
  (decode (tableCode nbits w)).instr?

end Sys2Proof
end

