-- ==== Sys2Proof/Machine/Fetch.lean ====
section
/-! DEFINITION. Which agent moves next and what it does (30_encoding.md R90): the completion of the command in flight
when its LATENCY draw has run out, else the host's next event; and where an instruction's bits are placed for the
next step. -/

namespace Sys2Proof.Machine

/-- What the next step is. -/
inductive Fetched where
  /-- An instruction, run in this state. -/
  | run (i : Instr) (s : State)
  /-- A step without an instruction, to this state. -/
  | go (s : State)
  /-- A model fault. -/
  | stop (r : Fault)
deriving DecidableEq, Repr

/-- The register index of STATUS (20_memory.md R51). -/
def statusIndex : BitVec 5 := 0x08

/-- The host's next event. A transaction leaves the queue; `poll` reads STATUS and leaves the queue if BUSY is 0, as
its expansion in 30_encoding.md R88 loops; a malformed header is a HOST_PROTOCOL fault (R83); reset takes effect
(70_reset_and_hazards.md R280); with nothing to do the host lets a step pass (60_exceptions.md R267, log entry 12). -/
def fetchHost (s : State) : Fetched :=
  match s.host with
  | [] => .go s
  | .reset :: rest => .go { s with host := rest }.resetEvent
  | .poll :: rest => .run (.hrd statusIndex) (if s.busy then s else { s with host := rest })
  | .transaction h d :: rest =>
    match decodeTransaction h d with
    | .instr i => .run i { s with host := rest }
    | .reject _ => .stop .hostProtocol

/-- The completion of the command in flight (30_encoding.md R92): its opcode is decoded; a reserved one fails with
ILLOP and reads no operand (R84). -/
def fetchCompletion (c : Byte) (s : State) : Fetched :=
  match decodeCommand c with
  | .instr i => .run i s
  | .reject _ => .go (s.complete (.fail .illop))

/-- The next step: a recorded fault is permanent (60_exceptions.md R263); a command in flight whose draw has run out
completes; else the host moves, and one step of the draw passes if a command is in flight (log entry 1). -/
def fetch (s : State) : Fetched :=
  match s.fault with
  | some r => .stop r
  | none =>
    match s.pending with
    | none => fetchHost s
    | some c =>
      match s.wait with
      | 0 => fetchCompletion c s
      | k + 1 => fetchHost { s with wait := k }

/-- The value a half gets from the boot duty of 70_reset_and_hazards.md R282: zero if nothing has written it. -/
def bootHalf : Option Word → Option Word
  | some v => some v
  | none => some 0

/-- Byte `i` written with zero if nothing has written it. -/
def bootByte (m : Memory) (i : Nat) : Memory :=
  match m.read i with
  | some _ => m
  | none => m.write i 0

/-- The boot duty of R282 (1) for one operand place: what is UNWRITTEN there is written with zero, what is written
stays. R and R2 are not the host's to write. -/
def State.bootPlace (s : State) : Place → State
  | .a => { s with aHi := bootHalf s.aHi, aLo := bootHalf s.aLo }
  | .b => { s with bHi := bootHalf s.bHi, bLo := bootHalf s.bLo }
  | .buf => { s with buf := (List.range Config.bufBytes).foldl bootByte s.buf }
  | .r => s
  | .r2 => s

/-- The boot duty for the register a host read names. -/
def State.bootReg (s : State) : Reg → State
  | .aLo => { s with aLo := bootHalf s.aLo }
  | .aHi => { s with aHi := bootHalf s.aHi }
  | .bLo => { s with bLo := bootHalf s.bLo }
  | .bHi => { s with bHi := bootHalf s.bHi }
  | .buf i => { s with buf := bootByte s.buf i.toNat }
  | .rLo | .rHi | .r2Lo | .r2Hi | .status | .cmd => s

/-- The boot duty for an instruction about to run. -/
def State.bootFor (s : State) (i : Instr) : State :=
  match i with
  | .hrd index =>
    match regOfIndex index with
    | some r => s.bootReg r
    | none => s
  | i => (readsOf i).foldl State.bootPlace s

/-- The state whose very next step runs the instruction of a code (log entry 10). A command word is in flight with its
draw run out; a transaction is the host's next event, and a command already in flight waits one step longer. The
host has first done the boot duty of R282 for it. -/
def State.place (s : State) (c : Code) : State :=
  let t : State :=
    match (decode c).instr? with
    | some i => s.bootFor i
    | none => s
  match c with
  | .command op => { t with pending := some op, status := statusBusy, wait := 0 }
  | .transaction h d =>
    { t with
      host := .transaction h d :: t.host
      wait := if t.pending.isSome then t.wait + 1 else t.wait }

/-- The placement of a table word's code (log entries 9, 10). -/
def State.placeTableWord (s : State) (nbits w : Nat) : State := s.place (tableCode nbits w)

end Sys2Proof.Machine
end

