-- ==== Sys2Proof/Machine/HostAsm.lean ====
section
/-! DEFINITION. The host's assembly as queues of host events (30_encoding.md R87) and the expansions of its
pseudo-instructions (R88). Host variables and control flow are the host's: `poll` is a host event, and the branch of
`div` and `mod` is a function of the STATUS word the host has read (log entry 18). -/

namespace Sys2Proof.Machine

/-- `wr <reg>, <value>` (R87). -/
def asmWr (r : Reg) (v : Word) : List HostEvent := [.transaction (writeHeader r.index) v]

/-- `rd <reg>` (R87); the result is the newest of `replies`. -/
def asmRd (r : Reg) : List HostEvent := [.transaction (readHeader r.index) 0]

/-- `cmd 0x<hh>` (R87). -/
def asmCmdRaw (c : Byte) : List HostEvent := asmWr .cmd (c.setWidth 64)

/-- `cmd <MNEMONIC>` (R87); a transaction is not a command and stands for itself. -/
def asmCmd (i : Instr) : List HostEvent :=
  match encode i with
  | .command c => asmCmdRaw c
  | .transaction h d => [.transaction h d]

/-- `poll` (R88). -/
def asmPoll : List HostEvent := [.poll]

/-- `run OP` (R88). -/
def asmRun (i : Instr) : List HostEvent := asmCmd i ++ asmPoll

/-- `lda v` (R88). -/
def asmLda (v : Wide) : List HostEvent := asmWr .aLo (loWord v) ++ asmWr .aHi (hiWord v)

/-- `ldb v` (R88). -/
def asmLdb (v : Wide) : List HostEvent := asmWr .bLo (loWord v) ++ asmWr .bHi (hiWord v)

/-- `lda64 v`, widening with a high word of 0 (R88). -/
def asmLda64 (v : Word) : List HostEvent := asmWr .aLo v ++ asmWr .aHi 0

/-- `ldb64 v`, widening with a high word of 0 (R88). -/
def asmLdb64 (v : Word) : List HostEvent := asmWr .bLo v ++ asmWr .bHi 0

/-- `str -> x` (R88). -/
def asmStr : List HostEvent := asmRd .rLo ++ asmRd .rHi

/-- `str2 -> x` (R88). -/
def asmStr2 : List HostEvent := asmRd .r2Lo ++ asmRd .r2Hi

/-- `trunc64 -> x`, the truncating narrowing (R88). -/
def asmTrunc64 : List HostEvent := asmRd .rLo

/-- The common head of `div` and `mod` (R88): `run DIVMOD ; rd STATUS -> s`. -/
def asmDivideHead : List HostEvent := asmRun .divmod ++ asmRd .status

/-- The tail of `div` after the STATUS word `s`: `if s == 0x02: str -> q` (R88). -/
def asmDivTail (s : Word) : List HostEvent := if s = 0x02 then asmStr else []

/-- The tail of `mod` after the STATUS word `s`: `if s == 0x02: str2 -> m` (R88). -/
def asmModTail (s : Word) : List HostEvent := if s = 0x02 then asmStr2 else []

/-- The value `div` or `mod` leaves: the value read, or the convenience layer's 0 (R88, 45_divide.md R185). -/
def asmDefaulted (s : Word) (v : Wide) : Wide := if s = 0x02 then v else 0

/-- One digit step of `toString` on the block (46_radix.md R212): `lda v ; ldb64 r ; run RDIV ; str2 ; str`. -/
def asmDigitStep (v : Wide) (r : Word) : List HostEvent :=
  asmLda v ++ asmLdb64 r ++ asmRun .rdiv ++ asmStr2 ++ asmStr

end Sys2Proof.Machine
end

