-- ==== Sys2Proof/Machine/HostText.lean ====
section
/-! DEFINITION. The host's text procedures (46_radix.md section 2), which the spec gives as the reference for a host
library over RDIV, MUL and ADD (00_scope.md R6). Characters are 8-bit ASCII codes (93 G1, log entry 16); SYM62 and
SYM63 are the argument `p` (R9). -/

namespace Sys2Proof.Machine

/-- A code in '0'..'9' (R210). -/
def isDecimalCode (c : Byte) : Bool := decide (0x30 ≤ c.toNat) && decide (c.toNat ≤ 0x39)

/-- A code in 'A'..'Z' (R210). -/
def isUpperCode (c : Byte) : Bool := decide (0x41 ≤ c.toNat) && decide (c.toNat ≤ 0x5A)

/-- A code in 'a'..'z' (R210). -/
def isLowerCode (c : Byte) : Bool := decide (0x61 ≤ c.toNat) && decide (c.toNat ≤ 0x7A)

/-- Whether a code is one of the 62 fixed symbols. -/
def isAlnumCode (c : Byte) : Bool := isDecimalCode c || isUpperCode c || isLowerCode c

/-- The host's duty on SYM62 and SYM63 (R9, R215): two distinct codes outside the 62 fixed symbols. -/
def paramsOk (p : HostParams) : Bool :=
  decide (p.sym62 ≠ p.sym63) && !isAlnumCode p.sym62 && !isAlnumCode p.sym63

/-- `ALPHA[d]` for a digit value in [0, 63] (R210); a larger value is no digit and never asked for. -/
def alphaCode (p : HostParams) (d : Nat) : Byte :=
  if d < 10 then BitVec.ofNat 8 (0x30 + d)
  else if d < 36 then BitVec.ofNat 8 (0x41 + (d - 10))
  else if d < 62 then BitVec.ofNat 8 (0x61 + (d - 36))
  else if d = 62 then p.sym62
  else p.sym63

/-- `digitValue(c, r)` (R211); 255 is no digit in any radix. -/
def digitValue (p : HostParams) (c : Byte) (r : Nat) : Nat :=
  if isDecimalCode c then c.toNat - 0x30
  else if isUpperCode c then c.toNat - 0x41 + 10
  else if isLowerCode c then
    if r ≤ 36 then c.toNat - 0x61 + 10 else c.toNat - 0x61 + 36
  else if c = p.sym62 then 62
  else if c = p.sym63 then 63
  else 255

/-- Whether `r` is in [2, 64] (R212, R213). -/
def textRadixOk (r : Nat) : Bool := decide (Config.radixMin ≤ r) && decide (r ≤ Config.radixMax)

/-- The loop of `toString` (R212), each step one RDIV, digits prepended to `acc`; at most `fuel` steps. -/
def formatLoop (p : HostParams) (r : Nat) : Nat → Wide → List Byte → List Byte
  | 0, _, acc => acc
  | fuel + 1, v, acc =>
    if v = 0 then acc
    else
      formatLoop p r fuel (divloop v (countValue r)).1
        (alphaCode p (divloop v (countValue r)).2.toNat :: acc)

/-- `toString(v, r)` (R212): none is NULL (R214). 128 steps suffice for every radix (R203). -/
def formatWide (p : HostParams) (v : Wide) (r : Nat) : Option (List Byte) :=
  if textRadixOk r then
    if v = 0 then some [0x30] else some (formatLoop p r 128 v [])
  else none

/-- The loop of `parse` (R213): the value by MUL then ADD, and the count of digits consumed. -/
def parseLoop (p : HostParams) (r : Nat) : List Byte → Wide → Nat → Wide × Nat
  | [], v, n => (v, n)
  | c :: cs, v, n =>
    if r ≤ digitValue p c r then (v, n)
    else
      parseLoop p r cs (add128 (mul128 v (countValue r)) (countValue (digitValue p c r))) (n + 1)

/-- `parse(text, r)` (R213): none is FAIL (R214). -/
def parseText (p : HostParams) (text : List Byte) (r : Nat) : Option (Wide × Nat) :=
  if textRadixOk r then
    match parseLoop p r text 0 0 with
    | (_, 0) => none
    | (v, n + 1) => some (v, n + 1)
  else none

/-- The full-consumption wrapper over `parse`, with the caller's fallback (R214). -/
def parseWhole (p : HostParams) (text : List Byte) (r : Nat) (fallback : Wide) : Wide :=
  match parseText p text r with
  | some (v, n) => if n = text.length then v else fallback
  | none => fallback

/-- The most digits a 128-bit value has in a radix (R203's table; 0 outside [2, 64]). -/
def maxDigits (r : Nat) : Nat :=
  if r < 2 then 0
  else if r = 2 then 128
  else if r = 3 then 81
  else if r = 4 then 64
  else if r = 5 then 56
  else if r = 6 then 50
  else if r = 7 then 46
  else if r = 8 then 43
  else if r = 9 then 41
  else if r = 10 then 39
  else if r = 11 then 38
  else if r = 12 then 36
  else if r = 13 then 35
  else if r = 14 then 34
  else if r = 15 then 33
  else if r ≤ 17 then 32
  else if r ≤ 19 then 31
  else if r ≤ 21 then 30
  else if r ≤ 23 then 29
  else if r ≤ 26 then 28
  else if r ≤ 30 then 27
  else if r ≤ 34 then 26
  else if r ≤ 40 then 25
  else if r ≤ 47 then 24
  else if r ≤ 56 then 23
  else if r ≤ 64 then 22
  else 0

end Sys2Proof.Machine
end

