-- ==== Sys2Proof/Safety.lean ====
section
/-! DEFINITION. The terms claims are stated in: the spec's state tuple, what it is to answer with a changed tuple,
the invariant, and runs that record a fault. -/

namespace Sys2Proof.Machine

/-- The state tuple of 10_state.md R36: what the spec names and the host or a fault can show. -/
structure View where
  aLo : Option Word
  aHi : Option Word
  bLo : Option Word
  bHi : Option Word
  rLo : Option Word
  rHi : Option Word
  r2Lo : Option Word
  r2Hi : Option Word
  buf : Memory
  status : Byte
  pending : Option Byte
  fault : Option Fault
deriving DecidableEq, Repr

/-- The tuple of a state. -/
def State.view (s : State) : View where
  aLo := s.aLo
  aHi := s.aHi
  bLo := s.bLo
  bHi := s.bHi
  rLo := s.rLo
  rHi := s.rHi
  r2Lo := s.r2Lo
  r2Hi := s.r2Hi
  buf := s.buf
  status := s.status
  pending := s.pending
  fault := s.fault

/-- The tuple after a success that writes R alone (30_encoding.md R92). -/
def View.wroteR (v : View) (r : Wide) : View :=
  { v with rHi := some (hiWord r), rLo := some (loWord r), status := 0x02, pending := none }

/-- The tuple after a success that writes R and R2 (30_encoding.md R92). -/
def View.wroteBoth (v : View) (q r : Wide) : View :=
  { v with
    rHi := some (hiWord q), rLo := some (loWord q)
    r2Hi := some (hiWord r), r2Lo := some (loWord r)
    status := 0x02, pending := none }

/-- The tuple after a failure with this STATUS (30_encoding.md R92, 60_exceptions.md R253). -/
def View.failed (v : View) (status : Byte) : View :=
  { v with
    rHi := none, rLo := none, r2Hi := none, r2Lo := none
    status := status, pending := none }

/-- The tuple after a host write of a register that is not CMD: the value stored at its width, nothing else
(20_memory.md R56); the read-only registers are not stored to. -/
def View.stored (v : View) (r : Reg) (d : Word) : View :=
  match r with
  | .aLo => { v with aLo := some d }
  | .aHi => { v with aHi := some d }
  | .bLo => { v with bLo := some d }
  | .bHi => { v with bHi := some d }
  | .buf i => { v with buf := v.buf.write i.toNat (d.setWidth 8) }
  | .rLo | .rHi | .r2Lo | .r2Hi | .status | .cmd => v

/-- The tuple after a command start (30_encoding.md R91). -/
def View.started (v : View) (c : Byte) : View := { v with pending := some c, status := 0x01 }

/-- `a` comes before `b` lexicographically on `(hi, lo)`, words compared unsigned (40_compare.md R107). -/
abbrev lexLess (a b : Wide) : Prop :=
  hiWord a < hiWord b ∨ (hiWord a = hiWord b ∧ loWord a < loWord b)

/-- The result is a next state with this tuple. -/
def AnswersView (o : Result) (v : View) : Prop := ∃ t, o = .next t ∧ t.view = v

/-- The result is a next state with the tuple of a success that stores these 16 bytes and nothing else: each byte of
BUF reads as `f` says, and no address outside BUF reads otherwise than before. -/
def AnswersBytes (o : Result) (s : State) (f : Nat → Byte) : Prop :=
  ∃ t, o = .next t ∧ t.view = { s.view with buf := t.buf, status := 0x02, pending := none } ∧
    (∀ i, i < 16 → t.buf.read i = some (f i)) ∧ (∀ i, 16 ≤ i → t.buf.read i = s.buf.read i)

/-- A place holds in `t` what it holds in `s`. -/
def samePlace (s t : State) : Place → Prop
  | .a => t.aHi = s.aHi ∧ t.aLo = s.aLo
  | .b => t.bHi = s.bHi ∧ t.bLo = s.bLo
  | .r => t.rHi = s.rHi ∧ t.rLo = s.rLo
  | .r2 => t.r2Hi = s.r2Hi ∧ t.r2Lo = s.r2Lo
  | .buf => ∀ i, t.buf.read i = s.buf.read i

/-- The fields that are the model's own, not the block's, are the same. -/
def sameModelFields (s t : State) : Prop :=
  t.wait = s.wait ∧ t.draws = s.draws ∧ t.host = s.host ∧ t.replies = s.replies

/-- The legal STATUS values (10_state.md R31). -/
def legalStatus : List Byte := [0x00, 0x01, 0x02, 0x04, 0x08, 0x0C]

/-- The STATUS values of a failure (60_exceptions.md R251). -/
def failureStatus : List Byte := [0x04, 0x08, 0x0C]

/-- The invariant: STATUS is legal (R31), BUSY says exactly whether a command is in flight (R34), BUF is in canonical
form, R and R2 are each written whole or not at all (R12), and after a failure both are UNWRITTEN (R253). -/
def StateInv (s : State) : Prop :=
  s.status ∈ legalStatus ∧
  (s.busy = s.pending.isSome) ∧
  s.buf.wf = true ∧
  (s.rLo.isSome = s.rHi.isSome) ∧
  (s.r2Lo.isSome = s.r2Hi.isSome) ∧
  (s.status ∈ failureStatus → s.resultR = none ∧ s.resultR2 = none)

/-- The ASCII codes of the 62 fixed symbols in the order of their digit values: decimal digits, uppercase letters,
lowercase letters (46_radix.md R210; log entry 16). -/
def textSymbols : List Byte :=
  (['0', '1', '2', '3', '4', '5', '6', '7', '8', '9'] ++
    ['A', 'B', 'C', 'D', 'E', 'F', 'G', 'H', 'I', 'J', 'K', 'L', 'M'] ++
    ['N', 'O', 'P', 'Q', 'R', 'S', 'T', 'U', 'V', 'W', 'X', 'Y', 'Z'] ++
    ['a', 'b', 'c', 'd', 'e', 'f', 'g', 'h', 'i', 'j', 'k', 'l', 'm'] ++
    ['n', 'o', 'p', 'q', 'r', 's', 't', 'u', 'v', 'w', 'x', 'y', 'z']).map
    fun c => BitVec.ofNat 8 c.toNat

/-- A run of `n` steps from `s` meets no model fault and no refusal, and ends in `t`. -/
def RunsTo (n : Nat) (s t : State) : Prop := Host.Core.run Sys2Proof.core n s = .next t

/-- One step in the machine of 10_state.md R36, which goes on after a fault with the fault recorded. -/
def stepLatched (s : State) : State :=
  match step s with
  | .next t => t
  | .fault r => s.recordFault r
  | .refused _ => s

/-- `n` steps of that machine. -/
def runLatched : Nat → State → State
  | 0, s => s
  | n + 1, s => runLatched n (stepLatched s)

end Sys2Proof.Machine
end

