-- ==== Sys2Proof/Certificates/Slice0/Obligations.lean ====
section
/-! DEFINITION. The statements for the provers, from the spec's numbered rules. A statement with hypotheses has its
witnesses in Sys2Proof/Tests/Slice0.lean, named witness_<name of the statement>. `View` is the spec's own state tuple
(10_state.md R36); an equation of tuples says both what changed and that nothing else of the block did. -/

section

open Sys2Proof Sys2Proof.Machine

/-! ### Encoding -/

/-- Sanity: words written out from the opcode map (30_encoding.md R82), one a family, and headers from R83. -/
def Obligations.SampleWordsDecode : Prop :=
  decode (.command 0x10) = .instr .cmp ∧
  decode (.command 0x21) = .instr .sub ∧
  decode (.command 0x30) = .instr .mul ∧
  decode (.command 0x43) = .instr .not ∧
  decode (.command 0x49) = .instr .shr ∧
  decode (.command 0x52) = .instr .popcnt ∧
  decode (.command 0x60) = .instr .divmod ∧
  decode (.command 0x70) = .instr .rdiv ∧
  decode (.command 0x83) = .instr .decle ∧
  decode (.transaction 0x9F 0xAB) = .instr (.hwr 0x1F 0xAB) ∧
  decode (.transaction 0x08 0) = .instr (.hrd 0x08)

/-- Decode and encode agree: no instruction loses a bit, and a code that decodes is the encoding of what it decodes to,
but for the data word of a read, which is the block's to fill (R83; that word being ignored is the model's choice,
log entry 11). -/
def Obligations.DecodeOfEncodeIsIdentity : Prop :=
  (∀ i : Instr, decode (encode i) = .instr i) ∧
  (∀ (k : Code) (i : Instr), decode k = .instr i →
    encode i = k ∨
      ∃ (h : Byte) (d : Word) (n : BitVec 5),
        k = .transaction h d ∧ i = .hrd n ∧ encode i = .transaction h 0)

/-- R83: H[7] selects write or read, H[4:0] is the index, and a header with H[6:5] other than 00 is a HOST_PROTOCOL model
fault where the host presents it; a read returns the register's value as its data word; with the four headers the rule
writes out. That a read's incoming data word is not looked at is the model's choice (log entry 11). -/
def Obligations.HeaderSelectsTransaction : Prop :=
  (∀ (h : Byte) (d : Word), h.extractLsb' 5 2 = 0 → h.getLsbD 7 = true →
    decodeTransaction h d = .instr (.hwr (h.extractLsb' 0 5) d)) ∧
  (∀ (h : Byte) (d : Word), h.extractLsb' 5 2 = 0 → h.getLsbD 7 = false →
    decodeTransaction h d = .instr (.hrd (h.extractLsb' 0 5))) ∧
  (∀ (s : State) (h : Byte) (d : Word) (rest : List HostEvent), h.extractLsb' 5 2 ≠ 0 →
    s.fault = none → (s.pending = none ∨ 0 < s.wait) → s.host = .transaction h d :: rest →
    step s = .fault .hostProtocol) ∧
  (∀ (s : State) (r : Reg) (v : Word), s.busy = false → s.readReg r = some v →
    exec (.hrd r.index) s = .next (s.reply v)) ∧
  (∀ d : Word, decodeTransaction 0x80 d = .instr (.hwr Reg.aLo.index d)) ∧
  (∀ d : Word, decodeTransaction 0x08 d = .instr (.hrd Reg.status.index)) ∧
  (∀ d : Word, decodeTransaction 0x89 d = .instr (.hwr Reg.cmd.index d)) ∧
  (∀ (i : BitVec 4) (d : Word),
    decodeTransaction (0x90 + i.setWidth 8) d = .instr (.hwr (Reg.buf i).index d))

/-- The step runs the decoded instruction. A command in flight whose LATENCY draw has run out is run in the state as it
is, a reserved one completes with ILLOP; a host transaction is run in the state with it taken from the host's queue, and one step of the draw of a command
in flight has passed. The queue and the draw are the model's own (log entries 1, 6). -/
def Obligations.StepRunsDecodedInstruction : Prop :=
  (∀ (s : State) (c : Byte) (i : Instr), s.fault = none → s.pending = some c → s.wait = 0 →
    decodeCommand c = .instr i → step s = exec i s) ∧
  (∀ (s : State) (c : Byte) (r : Reject), s.fault = none → s.pending = some c → s.wait = 0 →
    decodeCommand c = .reject r → step s = .next (s.complete (.fail .illop))) ∧
  (∀ (s : State) (h : Byte) (d : Word) (rest : List HostEvent) (i : Instr), s.fault = none →
    s.pending = none → s.host = .transaction h d :: rest →
    decodeTransaction h d = .instr i → step s = exec i { s with host := rest }) ∧
  (∀ (s : State) (c h : Byte) (d : Word) (rest : List HostEvent) (i : Instr) (k : Nat),
    s.fault = none → s.pending = some c → s.wait = k + 1 → s.host = .transaction h d :: rest →
    decodeTransaction h d = .instr i →
    step s = exec i { s with host := rest, wait := k })

/-- R84: 228 of the 256 CMD values are reserved, 0x00 and 0xFF among them; such a command, when it completes, reads no
operand and fails with ILLOP: STATUS 0x0C, R and R2 UNWRITTEN, everything else of the block unchanged. The CMD write
accepts it like any other value. -/
def Obligations.ReservedOpcodeCompletesWithIllop : Prop :=
  ((List.range 256).filter fun n =>
      decodeCommand (BitVec.ofNat 8 n) = .reject .reservedOpcode).length = 228 ∧
  decodeCommand 0x00 = .reject .reservedOpcode ∧
  decodeCommand 0xFF = .reject .reservedOpcode ∧
  (∀ (s : State) (c : Byte), decodeCommand c = .reject .reservedOpcode →
    s.fault = none → s.pending = some c → s.wait = 0 →
    AnswersView (step s) (s.view.failed 0x0C)) ∧
  (∀ (s : State) (c : Byte), s.busy = false →
    AnswersView (exec (.hwr Reg.cmd.index (c.setWidth 64)) s) (s.view.started c))

/-! ### Results of the commands -/

/-- R100: CMP writes the pattern of -1 (MAX), 0 or 1, by the lexicographic comparison of `(hi, lo)`. -/
def Obligations.CmpWritesThreeWayResult : Prop :=
  decodeCommand 0x10 = .instr .cmp ∧
  ∀ (s : State) (a b : Wide), s.operandA = some a → s.operandB = some b →
    AnswersView (exec .cmp s)
      (s.view.wroteR (if lexLess a b then wideMax else if a = b then 0 else 1))

/-- R101 to R106: the six predicates write 1 or 0. -/
def Obligations.PredicatesWriteOneOrZero : Prop :=
  (decodeCommand 0x11 = .instr .eq ∧ decodeCommand 0x12 = .instr .ne ∧
    decodeCommand 0x13 = .instr .lt ∧ decodeCommand 0x14 = .instr .le ∧
    decodeCommand 0x15 = .instr .gt ∧ decodeCommand 0x16 = .instr .ge) ∧
  ∀ (s : State) (a b : Wide), s.operandA = some a → s.operandB = some b →
    AnswersView (exec .eq s) (s.view.wroteR (if a = b then 1 else 0)) ∧
    AnswersView (exec .ne s) (s.view.wroteR (if a = b then 0 else 1)) ∧
    AnswersView (exec .lt s) (s.view.wroteR (if lexLess a b then 1 else 0)) ∧
    AnswersView (exec .le s) (s.view.wroteR (if lexLess b a then 0 else 1)) ∧
    AnswersView (exec .gt s) (s.view.wroteR (if lexLess b a then 1 else 0)) ∧
    AnswersView (exec .ge s) (s.view.wroteR (if lexLess a b then 0 else 1))

/-- R107's inference: the lexicographic comparison of words is the unsigned numeric order of the 128-bit values, and is
antisymmetric and transitive. -/
def Obligations.CompareIsUnsignedNumericOrder : Prop :=
  ∀ a b c : Wide,
    (compareWide a b = .lt ↔ a.toNat < b.toNat) ∧
    (compareWide a b = .eq ↔ a = b) ∧
    (compareWide a b = .gt ↔ b.toNat < a.toNat) ∧
    (lexLess a b ↔ a.toNat < b.toNat) ∧
    (compareWide b a = (compareWide a b).swap) ∧
    (compareWide a b = .lt → compareWide b c = .lt → compareWide a c = .lt)

/-- R121, R123: ADD and SUB write the sum and the difference modulo 2^128 and nothing else. -/
def Obligations.AddSubWrapModulo : Prop :=
  (decodeCommand 0x20 = .instr .add ∧ decodeCommand 0x21 = .instr .sub) ∧
  ∀ (s : State) (a b : Wide), s.operandA = some a → s.operandB = some b →
    AnswersView (exec .add s)
      (s.view.wroteR (BitVec.ofNat 128 ((a.toNat + b.toNat) % 2 ^ 128))) ∧
    AnswersView (exec .sub s)
      (s.view.wroteR (BitVec.ofNat 128 ((2 ^ 128 + a.toNat - b.toNat) % 2 ^ 128)))

/-- INC (0x22), DEC (0x23) and NEG (0x24) write A + 1, A - 1 and 2^128 - A, modulo 2^128: the inferences of R124, R125 and R126 from their
word-level forms. -/
def Obligations.IncDecNegValues : Prop :=
  (decodeCommand 0x22 = .instr .inc ∧ decodeCommand 0x23 = .instr .dec ∧
    decodeCommand 0x24 = .instr .neg) ∧
  ∀ (s : State) (a : Wide), s.operandA = some a →
    AnswersView (exec .inc s) (s.view.wroteR (BitVec.ofNat 128 ((a.toNat + 1) % 2 ^ 128))) ∧
    AnswersView (exec .dec s)
      (s.view.wroteR (BitVec.ofNat 128 ((2 ^ 128 + a.toNat - 1) % 2 ^ 128))) ∧
    AnswersView (exec .neg s) (s.view.wroteR (BitVec.ofNat 128 ((2 ^ 128 - a.toNat) % 2 ^ 128)))

/-- R126: NEG word by word, with the borrow of 1 in the high word exactly when the low word is not 0. -/
def Obligations.NegBorrowsWhenLowWordNonzero : Prop :=
  decodeCommand 0x24 = .instr .neg ∧
  ∀ (s : State) (a : Wide), s.operandA = some a →
    ∃ r : Wide, AnswersView (exec .neg s) (s.view.wroteR r) ∧
      loWord r = 0 - loWord a ∧
      hiWord r = (if loWord a ≠ 0 then (0 - hiWord a) - 1 else 0 - hiWord a) ∧
      (loWord a ≠ 0 → hiWord r = ~~~ hiWord a)

/-- R127: the laws of the adder, modulo 2^128. -/
def Obligations.AdderLaws : Prop :=
  ∀ a b c : Wide,
    add128 a 0 = a ∧ add128 a b = add128 b a ∧
    add128 (add128 a b) c = add128 a (add128 b c) ∧
    add128 (sub128 a b) b = a ∧ add128 a (neg128 a) = 0

/-- R141: MUL writes the low 128 bits of the product and nothing else. -/
def Obligations.MulKeepsLowHalf : Prop :=
  decodeCommand 0x30 = .instr .mul ∧
  ∀ (s : State) (a b : Wide), s.operandA = some a → s.operandB = some b →
    AnswersView (exec .mul s)
      (s.view.wroteR (BitVec.ofNat 128 ((a.toNat * b.toNat) % 2 ^ 128)))

/-- R142: the laws of the multiplier, modulo 2^128. -/
def Obligations.MultiplierLaws : Prop :=
  ∀ a b c : Wide,
    mul128 a b = mul128 b a ∧ mul128 (mul128 a b) c = mul128 a (mul128 b c) ∧
    mul128 a 1 = a ∧ mul128 a 0 = 0 ∧
    mul128 a (add128 b c) = add128 (mul128 a b) (mul128 a c)

/-- R150 to R153: AND, OR, XOR and NOT word by word, which is bit by bit on the 128-bit value; NOT is MAX - A. -/
def Obligations.BitwiseWordByWord : Prop :=
  (decodeCommand 0x40 = .instr .and ∧ decodeCommand 0x41 = .instr .or ∧
    decodeCommand 0x42 = .instr .xor ∧ decodeCommand 0x43 = .instr .not) ∧
  (∀ (s : State) (a b : Wide), s.operandA = some a → s.operandB = some b →
    AnswersView (exec .and s) (s.view.wroteR (a &&& b)) ∧
    AnswersView (exec .or s) (s.view.wroteR (a ||| b)) ∧
    AnswersView (exec .xor s) (s.view.wroteR (a ^^^ b))) ∧
  (∀ (s : State) (a : Wide), s.operandA = some a →
    AnswersView (exec .not s) (s.view.wroteR (wideMax - a))) ∧
  (∀ a b : Wide,
    a &&& b = joinWords (hiWord a &&& hiWord b) (loWord a &&& loWord b) ∧
    a ||| b = joinWords (hiWord a ||| hiWord b) (loWord a ||| loWord b) ∧
    a ^^^ b = joinWords (hiWord a ^^^ hiWord b) (loWord a ^^^ loWord b) ∧
    wideMax - a = joinWords (~~~ hiWord a) (~~~ loWord a))

/-- SHL (0x48) and SHR (0x49) by the whole 128-bit value of B: (A * 2^n) mod 2^128 and A div 2^n for every n, which is 0 from n = 128
on (the inferences of R155 and R157 on R156 and R158). -/
def Obligations.ShiftsByWholeOperandB : Prop :=
  (decodeCommand 0x48 = .instr .shl ∧ decodeCommand 0x49 = .instr .shr) ∧
  ∀ (s : State) (a b : Wide), s.operandA = some a → s.operandB = some b →
    AnswersView (exec .shl s)
      (s.view.wroteR (BitVec.ofNat 128 ((a.toNat * 2 ^ b.toNat) % 2 ^ 128))) ∧
    AnswersView (exec .shr s) (s.view.wroteR (BitVec.ofNat 128 (a.toNat / 2 ^ b.toNat)))

/-- R154: the shift amount is the whole 128-bit value of B, never reduced modulo 64 or 128: from 128 on, high word of B
included, both shifts write 0. -/
def Obligations.ShiftAmountsFrom128GiveZero : Prop :=
  ∀ (s : State) (a b : Wide), s.operandA = some a → s.operandB = some b →
    (AnswersView (exec .shl s) (s.view.wroteR (shl128 a b.toNat)) ∧
      AnswersView (exec .shr s) (s.view.wroteR (shr128 a b.toNat))) ∧
    (128 ≤ b.toNat ∨ hiWord b ≠ 0 →
      AnswersView (exec .shl s) (s.view.wroteR 0) ∧ AnswersView (exec .shr s) (s.view.wroteR 0))

/-- R160: the laws of the shifter, with the bounds that 90_conflicts.md C7 chooses. -/
def Obligations.ShifterLaws : Prop :=
  ∀ (a : Wide) (m n : Nat),
    (n ≤ 128 - bitlen a → shr128 (shl128 a n) n = a) ∧
    (n ≤ lowidx a - 1 ∨ a = 0 → shl128 (shr128 a n) n = a) ∧
    shl128 (shl128 a m) n = shl128 a (m + n) ∧
    shr128 (shr128 a m) n = shr128 a (m + n)

/-- R170: MSBIDX writes the bit length, 0 for 0 and floor(log2 A) + 1 else (00_scope.md R15). -/
def Obligations.MsbidxWritesBitLength : Prop :=
  decodeCommand 0x50 = .instr .msbidx ∧
  ∀ (s : State) (a : Wide), s.operandA = some a →
    AnswersView (exec .msbidx s)
      (s.view.wroteR (BitVec.ofNat 128 (if a = 0 then 0 else Nat.log2 a.toNat + 1)))

/-- R171: LSBIDX writes the lowest set index, 0 for 0 and one more than the number of trailing zero bits else
(00_scope.md R15). -/
def Obligations.LsbidxWritesLowestSetIndex : Prop :=
  decodeCommand 0x51 = .instr .lsbidx ∧
  ∀ (s : State) (a : Wide), s.operandA = some a →
    ∃ k : Nat, AnswersView (exec .lsbidx s) (s.view.wroteR (BitVec.ofNat 128 k)) ∧
      (a = 0 → k = 0) ∧
      (a ≠ 0 → 1 ≤ k ∧ k ≤ 128 ∧ a.getLsbD (k - 1) = true ∧
        ∀ j, j < k - 1 → a.getLsbD j = false)

/-- R172: POPCNT writes the number of set bits. -/
def Obligations.PopcntWritesNumberOfSetBits : Prop :=
  decodeCommand 0x52 = .instr .popcnt ∧
  ∀ (s : State) (a : Wide), s.operandA = some a →
    AnswersView (exec .popcnt s)
      (s.view.wroteR (BitVec.ofNat 128 (∑ i ∈ Finset.range 128, (a.getLsbD i).toNat))) ∧
    popcount128 a =
      (∑ i ∈ Finset.range 64, ((hiWord a).getLsbD i).toNat) +
        ∑ i ∈ Finset.range 64, ((loWord a).getLsbD i).toNat

/-- R180: DIVMOD fails with DIVZ exactly when B = 0, for every A; else it writes the quotient to R and the remainder to R2,
exact in the naturals. -/
def Obligations.DivmodWritesQuotientAndRemainder : Prop :=
  decodeCommand 0x60 = .instr .divmod ∧
  ∀ (s : State) (a b : Wide), s.operandA = some a → s.operandB = some b →
    (b = 0 → AnswersView (exec .divmod s) (s.view.failed 0x04)) ∧
    (b ≠ 0 → ∃ q r : Wide, AnswersView (exec .divmod s) (s.view.wroteBoth q r) ∧
      divloop a b = (q, r) ∧ a.toNat = q.toNat * b.toNat + r.toNat ∧ r.toNat < b.toNat)

/-- The shift-subtract loop of R182 is exact division (R183's inference), and it makes at most 128 iterations, 128 exactly
for a dividend of bit length 128 and the divisor 1 (R184). The count is the engine's own: none when `n < d`, where step 1
answers; else the engine runs from the start of R182 with a counter of one less than the count, and a run from a counter
of `k` is `k` times test and advance, then one last test. -/
def Obligations.DivisionLoopIsExactDivision : Prop :=
  ∀ n d : Wide, d ≠ 0 →
    divloop n d = (BitVec.ofNat 128 (n.toNat / d.toNat), BitVec.ofNat 128 (n.toNat % d.toNat)) ∧
    divIterations n d ≤ Config.divIterMax ∧
    (divIterations n d = 128 ↔ bitlen n = 128 ∧ d = 1) ∧
    (n < d → divIterations n d = 0 ∧ divEngine n d = none) ∧
    (d ≤ n → 1 ≤ divIterations n d ∧
      divEngine n d = some (divRun (divIterations n d - 1) (divStart n d))) ∧
    (∀ (k : Nat) (w : DivWork), divRun k w = divTest ((fun x => divAdvance (divTest x))^[k] w))

/-- R200, R201: RDIV is valid exactly for 2 <= B <= 64, where it writes A div B and A mod B, a digit below B; any other
radix, 0 and 1 among them, fails with BADRADIX. -/
def Obligations.RdivDividesByValidRadix : Prop :=
  decodeCommand 0x70 = .instr .rdiv ∧
  (∀ b : Wide, radixValid b = true ↔ hiWord b = 0 ∧ 2 ≤ (loWord b).toNat ∧ (loWord b).toNat ≤ 64) ∧
  ∀ (s : State) (a b : Wide), s.operandA = some a → s.operandB = some b →
    (2 ≤ b.toNat ∧ b.toNat ≤ 64 →
      AnswersView (exec .rdiv s)
        (s.view.wroteBoth (BitVec.ofNat 128 (a.toNat / b.toNat)) (BitVec.ofNat 128 (a.toNat % b.toNat)))) ∧
    (¬ (2 ≤ b.toNat ∧ b.toNat ≤ 64) → AnswersView (exec .rdiv s) (s.view.failed 0x08))

/-- R202's inference: for radix 16 the division gives what masking the low 4 bits and shifting right by 4 give. -/
def Obligations.RadixSixteenIsMaskAndShift : Prop :=
  ∀ a : Wide, divloop a 16 = (shr128 a 4, and128 a 0xF)

/-- R232, R233: ENCBE and ENCLE store the 16 bytes of A in their layout (R230, R231) and change nothing else. -/
def Obligations.EncodeStoresSixteenBytes : Prop :=
  (decodeCommand 0x80 = .instr .encbe ∧ decodeCommand 0x81 = .instr .encle) ∧
  ∀ (s : State) (a : Wide), s.operandA = some a →
    AnswersBytes (exec .encbe s) s (fun i => a.extractLsb' (8 * (15 - i)) 8) ∧
    AnswersBytes (exec .encle s) s (fun i => a.extractLsb' (8 * i) 8)

/-- R234, R235: DECBE and DECLE write R with the weighted sum of BUF's bytes and change nothing else, BUF included; an
UNWRITTEN byte is a model fault; and the sums invert the layouts of R230 and R231. -/
def Obligations.DecodeSumsSixteenBytes : Prop :=
  (decodeCommand 0x82 = .instr .decbe ∧ decodeCommand 0x83 = .instr .decle) ∧
  (∀ (s : State) (f : Nat → Byte), (∀ i, i < 16 → s.buf.read i = some (f i)) →
    AnswersView (exec .decbe s)
      (s.view.wroteR
        (BitVec.ofNat 128 (∑ i ∈ Finset.range 16, (f i).toNat * 2 ^ (8 * (15 - i))))) ∧
    AnswersView (exec .decle s)
      (s.view.wroteR (BitVec.ofNat 128 (∑ i ∈ Finset.range 16, (f i).toNat * 2 ^ (8 * i))))) ∧
  (∀ (s : State) (i : Nat), i < 16 → s.buf.read i = none →
    exec .decbe s = .fault .unwrittenRead ∧ exec .decle s = .fault .unwrittenRead) ∧
  (∀ v : Wide,
    BitVec.ofNat 128
      (∑ i ∈ Finset.range 16, (v.extractLsb' (8 * (15 - i)) 8).toNat * 2 ^ (8 * (15 - i))) = v ∧
    BitVec.ofNat 128 (∑ i ∈ Finset.range 16, (v.extractLsb' (8 * i) 8).toNat * 2 ^ (8 * i)) = v)

/-- R236: encoding then decoding in the same order gives A back; decoding then encoding the result leaves every byte of BUF
as it was; the two encodings are each other with all 16 bytes reversed (90_conflicts.md C4). -/
def Obligations.ByteRoundTrips : Prop :=
  (∀ (s : State) (a : Wide), s.operandA = some a →
    (∃ t u, exec .encbe s = .next t ∧ exec .decbe t = .next u ∧ u.resultR = some a) ∧
    (∃ t u, exec .encle s = .next t ∧ exec .decle t = .next u ∧ u.resultR = some a)) ∧
  (∀ s : State, s.written .buf = true →
    (∃ t u, exec .decbe s = .next t ∧
      exec .encbe { t with aHi := t.rHi, aLo := t.rLo } = .next u ∧
      ∀ i, u.buf.read i = s.buf.read i) ∧
    (∃ t u, exec .decle s = .next t ∧
      exec .encle { t with aHi := t.rHi, aLo := t.rLo } = .next u ∧
      ∀ i, u.buf.read i = s.buf.read i)) ∧
  (∀ (a : Wide) (i : Nat), i < 16 → beByte a i = leByte a (15 - i))

/-! ### What every command does and leaves -/

/-- R25, R92, R255: a command of a defined opcode meets an UNWRITTEN_READ fault exactly when an operand place of its "reads"
column is not written whole, before any failure check; else it completes. It never does anything else. -/
def Obligations.CommandFaultsExactlyOnUnwrittenOperand : Prop :=
  ∀ (i : Instr) (s : State), i.isCommand = true →
    ((∃ p ∈ readsOf i, s.written p = false) → exec i s = .fault .unwrittenRead) ∧
    ((∀ p ∈ readsOf i, s.written p = true) → ∃ t, exec i s = .next t)

/-- The frame of the 28 commands (R82 "Registers not named under writes are unchanged by a successful command"): after a
success STATUS is 0x02 and nothing is in flight, every place not in the "writes" column holds what it held, every byte
of BUF included; the recorded fault and the model's own fields are unchanged; and the division working registers are
touched only by DIVMOD and RDIV, and by no failure (the model's choice, log entry 4). -/
def Obligations.SuccessfulCommandFrame : Prop :=
  ∀ (i : Instr) (s t : State), i.isCommand = true → exec i s = .next t →
    (t.status = 0x02 →
      t.pending = none ∧
      (∀ p, p ∉ writesOf i → samePlace s t p) ∧
      t.fault = s.fault ∧ sameModelFields s t) ∧
    ((i ≠ .divmod ∧ i ≠ .rdiv) ∨ t.status ≠ 0x02 → t.divWork = s.divWork)

/-- The bytes of BUF beyond what a command stores: the encode commands store to addresses 0 to 15 only, every other command
stores to none (R33 "no other command touches BUF"). -/
def Obligations.OnlyEncodeStoresToBuf : Prop :=
  ∀ (i : Instr) (s t : State), i.isCommand = true → exec i s = .next t →
    (i ≠ .encbe → i ≠ .encle → t.buf = s.buf) ∧
    (∀ a, 16 ≤ a → t.buf.read a = s.buf.read a)

/-- R254: the commands that can fail are exactly DIVMOD (with DIVZ, when B = 0) and RDIV (with BADRADIX, when B is outside
[2, 64]), and the reserved opcodes (with ILLOP); every other command succeeds whatever its operands. -/
def Obligations.OnlyDivmodRdivAndReservedFail : Prop :=
  (∀ (i : Instr) (s t : State), i.isCommand = true → exec i s = .next t →
    t.status = 0x02 ∨
    (i = .divmod ∧ t.status = 0x04 ∧ s.operandB = some 0) ∨
    (i = .rdiv ∧ t.status = 0x08 ∧ ∃ b, s.operandB = some b ∧ ¬ (2 ≤ b.toNat ∧ b.toNat ≤ 64))) ∧
  (∃ s t, exec .divmod s = .next t ∧ t.status = 0x04) ∧
  (∃ s t, exec .rdiv s = .next t ∧ t.status = 0x08) ∧
  (∀ c s, decodeCommand c = .reject .reservedOpcode → s.fault = none → s.pending = some c →
    s.wait = 0 → AnswersView (step s) (s.view.failed 0x0C))

/-- R253: after a failure R and R2 are UNWRITTEN, A, B and BUF are unchanged, STATUS is that of R251; and a later
successful command that writes R gives it a value again. -/
def Obligations.FailureLeavesResultsUnwritten : Prop :=
  (∀ (i : Instr) (s t : State), i.isCommand = true → exec i s = .next t → t.status ≠ 0x02 →
    t.rHi = none ∧ t.rLo = none ∧ t.r2Hi = none ∧ t.r2Lo = none ∧
    samePlace s t .a ∧ samePlace s t .b ∧ t.buf = s.buf ∧
    t.fault = s.fault ∧ sameModelFields s t ∧ t.pending = none ∧
    (t.status = 0x04 ∨ t.status = 0x08)) ∧
  (∀ (c : Byte) (s : State), decodeCommand c = .reject .reservedOpcode → s.fault = none →
    s.pending = some c → s.wait = 0 → AnswersView (step s) (s.view.failed 0x0C)) ∧
  (∀ (i : Instr) (s t : State), i.isCommand = true → exec i s = .next t → t.status = 0x02 →
    (.r ∈ writesOf i → t.resultR.isSome = true) ∧ (.r2 ∈ writesOf i → t.resultR2.isSome = true))

/-- R24: every command that completes without failure writes R, except ENCBE and ENCLE, which leave it; a command that
fails, a reserved opcode's included, leaves both halves UNWRITTEN; R is UNWRITTEN at reset; the host's indices 0x04 and 0x05 are R, and it cannot
write them. -/
def Obligations.WhoWritesR : Prop :=
  (∀ (i : Instr) (s t : State), i.isCommand = true → exec i s = .next t → t.status = 0x02 →
    (i ≠ .encbe → i ≠ .encle → t.rHi.isSome = true ∧ t.rLo.isSome = true) ∧
    (i = .encbe ∨ i = .encle → t.rHi = s.rHi ∧ t.rLo = s.rLo)) ∧
  (∀ (i : Instr) (s t : State), i.isCommand = true → exec i s = .next t → t.status ≠ 0x02 →
    t.rHi = none ∧ t.rLo = none) ∧
  (∀ (c : Byte) (s : State), decodeCommand c = .reject .reservedOpcode → s.fault = none →
    s.pending = some c → s.wait = 0 →
    ∃ t, step s = .next t ∧ t.status = 0x0C ∧ t.rHi = none ∧ t.rLo = none) ∧
  (State.reset.rHi = none ∧ State.reset.rLo = none) ∧
  (regOfIndex 0x04 = some .rLo ∧ regOfIndex 0x05 = some .rHi) ∧
  (∀ (s : State) (d : Word), exec (.hwr 0x04 d) s = .fault .hostProtocol ∧
    exec (.hwr 0x05 d) s = .fault .hostProtocol)

/-- R26: only DIVMOD and RDIV write R2, with the remainder; every other success leaves it; every failure, a reserved opcode's included,
makes it UNWRITTEN; so is it at reset; the host's indices 0x06 and 0x07 are R2, and it cannot write them. -/
def Obligations.WhoWritesR2 : Prop :=
  (∀ (i : Instr) (s t : State), i.isCommand = true → exec i s = .next t → t.status = 0x02 →
    (i ≠ .divmod → i ≠ .rdiv → t.r2Hi = s.r2Hi ∧ t.r2Lo = s.r2Lo) ∧
    (i = .divmod ∨ i = .rdiv → ∃ a b, s.operandA = some a ∧ s.operandB = some b ∧
      t.resultR2 = some (BitVec.ofNat 128 (a.toNat % b.toNat)))) ∧
  (∀ (i : Instr) (s t : State), i.isCommand = true → exec i s = .next t → t.status ≠ 0x02 →
    t.r2Hi = none ∧ t.r2Lo = none) ∧
  (∀ (c : Byte) (s : State), decodeCommand c = .reject .reservedOpcode → s.fault = none →
    s.pending = some c → s.wait = 0 →
    ∃ t, step s = .next t ∧ t.status = 0x0C ∧ t.r2Hi = none ∧ t.r2Lo = none) ∧
  (State.reset.r2Hi = none ∧ State.reset.r2Lo = none) ∧
  (regOfIndex 0x06 = some .r2Lo ∧ regOfIndex 0x07 = some .r2Hi) ∧
  (∀ (s : State) (d : Word), exec (.hwr 0x06 d) s = .fault .hostProtocol ∧
    exec (.hwr 0x07 d) s = .fault .hostProtocol)

/-- R34: a command's outputs are a function of its opcode and of A, B and BUF alone: two states that agree on the places it
reads give the same STATUS and the same contents of every place it writes, and of R and R2 after a failure. -/
def Obligations.OutputsDependOnOperandsAlone : Prop :=
  ∀ (i : Instr) (s s' t : State), i.isCommand = true →
    (∀ p ∈ readsOf i, samePlace s s' p) → exec i s = .next t →
    ∃ t', exec i s' = .next t' ∧ t'.status = t.status ∧
      (t.status = 0x02 → ∀ p ∈ writesOf i, p ≠ .buf → samePlace t t' p) ∧
      (t.status = 0x02 → .buf ∈ writesOf i → ∀ j, j < 16 → t'.buf.read j = t.buf.read j) ∧
      (t.status ≠ 0x02 → samePlace t t' .r ∧ samePlace t t' .r2)

/-- A and B change only by a host write of one of their halves or by reset (R22, R23 "no command writes", R280): no
completion of any command, no read and no other write changes them; where reset changed them, the whole tuple is
that of reset. -/
def Obligations.OperandsChangeOnlyByHostOrReset : Prop :=
  ∀ s t : State, step s = .next t →
    (samePlace s t .a ∧ samePlace s t .b) ∨
    (∃ rest, s.host = .reset :: rest ∧ t.view = State.reset.view ∧ t.host = rest) ∨
    (∃ h d rest, s.host = .transaction h d :: rest ∧
      (h = 0x80 ∨ h = 0x81 ∨ h = 0x82 ∨ h = 0x83) ∧ s.busy = false)

/-! ### Host transactions -/

/-- R91: a host write of CMD with BUSY = 0 makes the opcode pending and STATUS 0x01, and changes nothing else of the block:
A, B and BUF are not read and not changed. They are read at completion, as they are then; and the host cannot change them
in between, every write while BUSY = 1 being a fault. (How long the command waits is the draw's, log entry 1.) -/
def Obligations.CmdWriteStartsCommand : Prop :=
  (∀ (s : State) (c : Byte), s.busy = false →
    ∃ t, exec (.hwr 0x09 (c.setWidth 64)) s = .next t ∧
      t.view = { s.view with pending := some c, status := 0x01 } ∧
      t.divWork = s.divWork ∧ t.host = s.host ∧ t.replies = s.replies) ∧
  (∀ (s : State) (c : Byte) (i : Instr), s.fault = none → s.pending = some c → s.wait = 0 →
    decodeCommand c = .instr i → step s = exec i s) ∧
  (∀ (s : State) (n : BitVec 5) (d : Word), s.busy = true → exec (.hwr n d) s = .fault .hostProtocol)

/-- HWR (R86, R51): a write that is not well formed, or made while BUSY, is a HOST_PROTOCOL fault; every other one
answers a next state: CMD starts a command, any other register takes the value at its width; nothing else changes.
Well-formedness is WellFormed.lean's, written from R51 and R54 apart from the meaning. -/
def Obligations.HwrStoresOrFaults : Prop :=
  ∀ (s : State) (i : BitVec 5) (d : Word),
    ((Instr.hwr i d).wellFormed = false ∨ s.busy = true →
      exec (.hwr i d) s = .fault .hostProtocol) ∧
    ((Instr.hwr i d).wellFormed = true → s.busy = false →
      ∃ r t, regOfIndex i = some r ∧ r.index = i ∧ exec (.hwr i d) s = .next t ∧
        (r = .cmd → t.view = s.view.started (d.setWidth 8)) ∧
        (r ≠ .cmd → t.view = s.view.stored r d ∧ sameModelFields s t) ∧
        t.divWork = s.divWork ∧ t.host = s.host ∧ t.replies = s.replies)

/-- HRD (R86, R51): a reserved index is a HOST_PROTOCOL fault, and so, while BUSY = 1, is a half of R or R2 or a byte of
BUF; a readable register that is written answers a next state in which the host has its value, zero-extended, and
nothing of the block has changed; an UNWRITTEN one is an UNWRITTEN_READ fault, BUSY or not. The readable registers are
all of them while BUSY = 0, and the halves of A and B, STATUS and CMD always. -/
def Obligations.HrdReturnsValueOrFaults : Prop :=
  ∀ (s : State) (i : BitVec 5),
    ((Instr.hrd i).wellFormed = false → exec (.hrd i) s = .fault .hostProtocol) ∧
    (s.busy = true → (4 ≤ i.toNat ∧ i.toNat ≤ 7) ∨ 0x10 ≤ i.toNat →
      exec (.hrd i) s = .fault .hostProtocol) ∧
    ((Instr.hrd i).wellFormed = true →
      s.busy = false ∨ i.toNat ≤ 3 ∨ i = 0x08 ∨ i = 0x09 →
      ∃ r, regOfIndex i = some r ∧ r.index = i ∧
        (∀ v, s.readReg r = some v → exec (.hrd i) s = .next (s.reply v)) ∧
        (s.readReg r = none → exec (.hrd i) s = .fault .unwrittenRead))

/-- R51's map, index by index: what each register's read returns. -/
def Obligations.RegisterIndexMap : Prop :=
  ∀ s : State,
    (regOfIndex 0x00).bind s.readReg = s.aLo ∧ (regOfIndex 0x01).bind s.readReg = s.aHi ∧
    (regOfIndex 0x02).bind s.readReg = s.bLo ∧ (regOfIndex 0x03).bind s.readReg = s.bHi ∧
    (regOfIndex 0x04).bind s.readReg = s.rLo ∧ (regOfIndex 0x05).bind s.readReg = s.rHi ∧
    (regOfIndex 0x06).bind s.readReg = s.r2Lo ∧ (regOfIndex 0x07).bind s.readReg = s.r2Hi ∧
    (regOfIndex 0x08).bind s.readReg = some (s.status.setWidth 64) ∧
    (regOfIndex 0x09).bind s.readReg = some 0 ∧
    (∀ i : BitVec 5, 0x0A ≤ i.toNat → i.toNat ≤ 0x0F → regOfIndex i = none) ∧
    (∀ i : BitVec 5, 0x10 ≤ i.toNat →
      (regOfIndex i).bind s.readReg = (s.buf.read (i.toNat - 0x10)).map fun b => b.setWidth 64)

/-- R52: while BUSY, every host write and every host read of R, R2 or BUF is a HOST_PROTOCOL fault; reads of A, B, STATUS
and CMD are allowed: STATUS and CMD answer, and a written half of A or B answers its value. -/
def Obligations.BusyRestrictions : Prop :=
  ∀ s : State, s.busy = true →
    (∀ (i : BitVec 5) (d : Word), exec (.hwr i d) s = .fault .hostProtocol) ∧
    (∀ i : BitVec 5, (4 ≤ i.toNat ∧ i.toNat ≤ 7) ∨ 0x10 ≤ i.toNat →
      exec (.hrd i) s = .fault .hostProtocol) ∧
    exec (.hrd 0x08) s = .next (s.reply (s.status.setWidth 64)) ∧
    exec (.hrd 0x09) s = .next (s.reply 0) ∧
    (∀ v, s.aLo = some v → exec (.hrd 0x00) s = .next (s.reply v)) ∧
    (∀ v, s.aHi = some v → exec (.hrd 0x01) s = .next (s.reply v)) ∧
    (∀ v, s.bLo = some v → exec (.hrd 0x02) s = .next (s.reply v)) ∧
    (∀ v, s.bHi = some v → exec (.hrd 0x03) s = .next (s.reply v))

/-- R54: a write of an 8-bit register with any of data bits 63:8 set is a HOST_PROTOCOL fault, and a read of an 8-bit
register returns the register in bits 7:0 and zero in bits 63:8. -/
def Obligations.NarrowRegistersUseLowByte : Prop :=
  (∀ (s : State) (i : BitVec 5) (d : Word), i = 0x08 ∨ i = 0x09 ∨ 0x10 ≤ i.toNat → 256 ≤ d.toNat →
    exec (.hwr i d) s = .fault .hostProtocol) ∧
  (∀ (s t : State) (i : BitVec 5), i = 0x08 ∨ i = 0x09 ∨ 0x10 ≤ i.toNat → exec (.hrd i) s = .next t →
    ∃ v : Word, t.replies = v :: s.replies ∧ v.extractLsb' 8 56 = 0 ∧
      (i = 0x08 → v.setWidth 8 = s.status) ∧ (i = 0x09 → v.setWidth 8 = (0x00 : Byte)) ∧
      (0x10 ≤ i.toNat → s.buf.read (i.toNat - 0x10) = some (v.setWidth 8)))

/-- R56: a host write of CMD starts a command; a host write of any other writable index stores its value and does nothing
else; no host read changes anything of the block, and a second read returns the same value. -/
def Obligations.OnlyCmdWriteHasSideEffect : Prop :=
  (∀ (s t : State) (d : Word), exec (.hwr 0x09 d) s = .next t →
    t.view = s.view.started (d.setWidth 8)) ∧
  (∀ (s t : State) (i : BitVec 5) (d : Word), i ≠ 0x09 → exec (.hwr i d) s = .next t →
    ∃ r, regOfIndex i = some r ∧ r.writable = true ∧ t.view = s.view.stored r d) ∧
  (∀ (s t : State) (i : BitVec 5), exec (.hrd i) s = .next t →
    t.view = s.view ∧ t.divWork = s.divWork ∧
    ∃ v u, t.replies = v :: s.replies ∧ exec (.hrd i) t = .next u ∧ u.replies = v :: v :: s.replies)

/-- R58: a host write of BUF[i] changes neither A nor R, and a host write of A_LO does not change BUF. -/
def Obligations.BufAndRegistersAreApart : Prop :=
  (∀ (s t : State) (i : BitVec 5) (d : Word), 0x10 ≤ i.toNat → exec (.hwr i d) s = .next t →
    samePlace s t .a ∧ samePlace s t .r ∧
    t.buf.read (i.toNat - 0x10) = some (d.setWidth 8) ∧
    ∀ j, j ≠ i.toNat - 0x10 → t.buf.read j = s.buf.read j) ∧
  (∀ (s t : State) (d : Word), exec (.hwr 0x00 d) s = .next t →
    t.buf = s.buf ∧ t.aLo = some d)

/-- The placement of a table word (log entries 9, 10): a command word in 8 bits, or a transaction in 72 bits, placed in a
state with no recorded fault, is what the very next step runs; and a command so placed completes, since the boot duty
of R282 is done for it. The placement is the model's own. -/
def Obligations.PlacedWordRunsNext : Prop :=
  (∀ (s : State) (c : Byte) (i : Instr), s.fault = none → decodeCommand c = .instr i →
    step (s.withFetchWord 8 c.toNat) = exec i (s.withFetchWord 8 c.toNat) ∧
    ∃ t, exec i (s.withFetchWord 8 c.toNat) = .next t) ∧
  (∀ (s : State) (h : Byte) (d : Word) (i : Instr), s.fault = none → decodeTransaction h d = .instr i →
    step (s.withFetchWord 72 (h.toNat + 256 * d.toNat)) = exec i (s.bootFor i))

/-! ### Reset, faults, invariants, liveness -/

/-- R35: the state after reset. -/
def Obligations.ResetValues : Prop :=
  State.reset.view =
    { aLo := none, aHi := none, bLo := none, bHi := none, rLo := none, rHi := none,
      r2Lo := none, r2Hi := none, buf := [], status := 0x00, pending := none, fault := none } ∧
  (∀ i, State.reset.buf.read i = none) ∧
  exec (.hrd 0x09) State.reset = .next (State.reset.reply 0)

/-- R280: reset takes effect in one step, also while a command is in flight: the command is abandoned with none of its writes,
and every piece of state takes its value of R35. In the model reset is the host's next event, and a command whose draw
has run out completes first (log entry 1). -/
def Obligations.ResetAbandonsCommandInFlight : Prop :=
  ∀ (s : State) (rest : List HostEvent), s.fault = none → s.host = .reset :: rest →
    (s.pending = none ∨ 0 < s.wait) →
    AnswersView (step s) State.reset.view

/-- R263: a model fault is permanent: no later step, and no reset, clears it, whatever the host does. And one that a step
meets is recorded, with nothing else changed (R36, R262; that the machine that goes on stands beside `step` is the
model's choice, log entry 8). -/
def Obligations.ModelFaultIsPermanent : Prop :=
  (∀ (s : State) (r : Fault), s.fault = some r →
    step s = .fault r ∧ ∀ n, runLatched n s = s) ∧
  (∀ (s : State) (r : Fault), s.fault = none → step s = .fault r →
    stepLatched s = { s with fault := some r } ∧ (stepLatched s).fault = some r)

/-- Every step answers a next state or one of the two model faults: nothing is refused. -/
def Obligations.NoStepIsRefused : Prop :=
  (∀ (i : Instr) (s : State) (r : Refusal), exec i s ≠ .refused r) ∧
  (∀ (s : State) (r : Refusal), step s ≠ .refused r)

/-- Every step keeps the invariant (`StateInv`): STATUS legal (R31), BUSY exactly when a command is in flight (R34), BUF
canonical, R and R2 whole or not at all, and UNWRITTEN after a failure (R253). -/
def Obligations.StepKeepsInvariant : Prop :=
  ∀ s t : State, StateInv s → step s = .next t → StateInv t

/-- The invariant holds after reset. -/
def Obligations.ResetMeetsInvariant : Prop := StateInv State.reset

/-- A completion always leaves BUSY = 0 and the block ready for the next command (R250), and STATUS is one of the three
outcomes of R251: OK with ERR 0, or OK 0 with ERR 1, 2. Reserved opcodes are ReservedOpcodeCompletesWithIllop's. -/
def Obligations.CompletionClearsBusy : Prop :=
  ∀ (i : Instr) (s t : State), i.isCommand = true → exec i s = .next t →
    t.busy = false ∧ t.pending = none ∧
    ((t.okBit = true ∧ t.errField = 0) ∨ (t.okBit = false ∧ (t.errField = 1 ∨ t.errField = 2))) ∧
    t.status.extractLsb' 5 3 = 0 ∧
    ∀ c : Byte, AnswersView (exec (.hwr 0x09 (c.setWidth 64)) t) (t.view.started c)

/-- R290 in the model: a command in flight whose host does nothing reaches its completion step after exactly the steps left
of its draw, and a step more completes it. The draw is the model's form of LATENCY (log entry 1). -/
def Obligations.StartedCommandCompletes : Prop :=
  ∀ (s : State) (c : Byte), s.fault = none → s.pending = some c → s.host = [] →
    RunsTo s.wait s { s with wait := 0 } ∧
    Host.Core.run Sys2Proof.core (s.wait + 1) s = step { s with wait := 0 }

/-- R60, R290 in the model: a poll loop ends. While the command is in flight the host reads STATUS 0x01 again and again;
after the completion it reads the outcome once and goes on with the rest of its program; the block is then as the
completion left it. The draw and the host's queue are the model's own (log entries 1, 6). -/
def Obligations.PollLoopEnds : Prop :=
  ∀ (s u : State) (c : Byte) (rest : List HostEvent), s.fault = none → s.pending = some c →
    s.status = 0x01 → s.host = .poll :: rest → step { s with wait := 0 } = .next u →
    ∃ t, RunsTo (s.wait + 2) s t ∧ t.view = u.view ∧ t.host = rest ∧
      t.replies = u.status.setWidth 64 :: (List.replicate s.wait 1 ++ s.replies)

/-! ### The host's text procedures -/

/-- R214: NULL and FAIL for an invalid radix, FAIL when no character is consumed, a formatted value never empty, and the
full-consumption wrapper. -/
def Obligations.TextFailureResults : Prop :=
  (∀ (p : HostParams) (v : Wide) (text : List Byte) (r : Nat), r < 2 ∨ 64 < r →
    formatWide p v r = none ∧ parseText p text r = none) ∧
  (∀ (p : HostParams) (r : Nat), parseText p [] r = none) ∧
  (∀ (p : HostParams) (c : Byte) (cs : List Byte) (r : Nat), r ≤ digitValue p c r →
    parseText p (c :: cs) r = none) ∧
  (∀ (p : HostParams) (v : Wide) (r : Nat), 2 ≤ r → r ≤ 64 →
    ∃ t, formatWide p v r = some t ∧ t ≠ []) ∧
  (∀ (p : HostParams) (text : List Byte) (r : Nat) (fallback v : Wide) (n : Nat),
    parseText p text r = some (v, n) →
    parseWhole p text r fallback = if n = text.length then v else fallback) ∧
  (∀ (p : HostParams) (text : List Byte) (r : Nat) (fallback : Wide),
    parseText p text r = none → parseWhole p text r fallback = fallback)

/-- R213: what `parse` returns is the longest prefix of digits of the radix, and its value modulo 2^128 (the wrap is the
spec's inference from the Arithmetic Core's contract). -/
def Obligations.ParseReadsLongestDigitPrefix : Prop :=
  ∀ (p : HostParams) (text : List Byte) (r : Nat) (v : Wide) (n : Nat),
    parseText p text r = some (v, n) →
    1 ≤ n ∧ n ≤ text.length ∧
    (∀ c ∈ text.take n, digitValue p c r < r) ∧
    (∀ c, text[n]? = some c → r ≤ digitValue p c r) ∧
    v = BitVec.ofNat 128
      ((text.take n).foldl (fun acc c => acc * r + digitValue p c r) 0)

/-- R203: the digits of a 128-bit value in a radix are at most the table's number, which MAX reaches. -/
def Obligations.DigitCountBound : Prop :=
  ∀ (p : HostParams) (v : Wide) (r : Nat), 2 ≤ r → r ≤ 64 →
    (∃ t, formatWide p v r = some t ∧ t.length ≤ maxDigits r ∧ t.length ≤ 128) ∧
    (∃ t, formatWide p wideMax r = some t ∧ t.length = maxDigits r)

/-- R210, R211: the 64 symbols, digits, then uppercase letters (90_conflicts.md C1), then lowercase letters, then SYM62 and
SYM63; and a character's digit value in a radix, which folds lowercase letters to 10 to 35 up to radix 36, and is 255
for every other character. That characters are ASCII codes is presumed (log entry 16). -/
def Obligations.DigitAlphabet : Prop :=
  ∀ (p : HostParams) (r : Nat),
    ((List.range 62).map (alphaCode p) = textSymbols ∧
      alphaCode p 62 = p.sym62 ∧ alphaCode p 63 = p.sym63) ∧
    (∀ d, d < 10 → digitValue p (BitVec.ofNat 8 ('0'.toNat + d)) r = d) ∧
    (∀ d, d < 26 → digitValue p (BitVec.ofNat 8 ('A'.toNat + d)) r = 10 + d) ∧
    (∀ d, d < 26 → r ≤ 36 → digitValue p (BitVec.ofNat 8 ('a'.toNat + d)) r = 10 + d) ∧
    (∀ d, d < 26 → 36 < r → digitValue p (BitVec.ofNat 8 ('a'.toNat + d)) r = 36 + d) ∧
    (paramsOk p = true → digitValue p p.sym62 r = 62 ∧ digitValue p p.sym63 r = 63) ∧
    (∀ c : Byte, c ∉ textSymbols → c ≠ p.sym62 → c ≠ p.sym63 → digitValue p c r = 255)

/-- R215: parsing a formatted value gives it back and consumes the whole text, for every radix and value, when SYM62 and
SYM63 are distinct and outside the other 62 symbols. -/
def Obligations.TextRoundTrip : Prop :=
  ∀ (p : HostParams) (v : Wide) (r : Nat), paramsOk p = true → 2 ≤ r → r ≤ 64 →
    ∃ t, formatWide p v r = some t ∧ parseText p t r = some (v, t.length)

end
end

