-- ==== Sys2Proof/Laws/Memory.lean ====
section
/-! SUPPORT. BUF as memory: what a read after a write gives, and the canonical form, which reset has and every memory
operation keeps. -/

namespace Sys2Proof.Machine

/-- A read after a write: the written byte at its address, the old contents elsewhere. -/
theorem Memory.read_write (m : Memory) (i j : Nat) (v : Byte) :
    (m.write i v).read j = if j = i then some v else m.read j := by
  induction m with
  | nil => simp [Memory.write, Memory.read]
  | cons c m ih =>
    obtain ⟨k, w⟩ := c
    simp only [Memory.write]
    split
    · simp [Memory.read]
    · split
      · next h => subst h; simp [Memory.read]; split <;> simp_all
      · next h1 h2 =>
        simp only [Memory.read, ih]
        by_cases hj : j = k
        · subst hj; simp [show ¬ j = i from fun e => h2 e.symm]
        · simp [hj]

/-- A write at or above the bound keeps the rising order from the bound on. -/
theorem Memory.wfFrom_write (m : Memory) (low i : Nat) (v : Byte) (hl : low ≤ i) (hi : i < Config.bufBytes)
    (h : Memory.wfFrom low m = true) : Memory.wfFrom low (m.write i v) = true := by
  induction m generalizing low with
  | nil => simp [Memory.write, Memory.wfFrom, hl, hi]
  | cons c m ih =>
    obtain ⟨k, w⟩ := c
    simp only [Memory.wfFrom, Bool.and_eq_true, decide_eq_true_eq] at h
    obtain ⟨⟨hk, hk16⟩, hm⟩ := h
    simp only [Memory.write]
    split
    · next hlt =>
      simp only [Memory.wfFrom, Bool.and_eq_true, decide_eq_true_eq]
      exact ⟨⟨hl, hi⟩, ⟨hlt, hk16⟩, hm⟩
    · split
      · next heq =>
        subst heq
        simp only [Memory.wfFrom, Bool.and_eq_true, decide_eq_true_eq]
        exact ⟨⟨hl, hi⟩, hm⟩
      · next h1 h2 =>
        simp only [Memory.wfFrom, Bool.and_eq_true, decide_eq_true_eq]
        exact ⟨⟨hk, hk16⟩, ih (k + 1) (by omega) hm⟩

/-- A write of a byte of BUF keeps the canonical form. -/
theorem Memory.wf_write (m : Memory) (i : Nat) (v : Byte) (hi : i < Config.bufBytes) (h : m.wf = true) :
    (m.write i v).wf = true :=
  m.wfFrom_write 0 i v (Nat.zero_le i) hi h

/-- Writes of bytes of BUF, one after the other, keep the canonical form. -/
theorem Memory.wf_writes (l : List Host.Cell) (m : Memory) (hl : ∀ c ∈ l, c.1 < Config.bufBytes) (h : m.wf = true) :
    Memory.wf (l.foldl (fun m c => m.write c.1 c.2) m) = true := by
  induction l generalizing m with
  | nil => exact h
  | cons c l ih =>
    exact ih _ (fun d hd => hl d (List.mem_cons_of_mem c hd))
      (m.wf_write c.1 c.2 (hl c List.mem_cons_self) h)

/-- The encode commands store to bytes of BUF only. -/
theorem bytesOf_address (f : Nat → Byte) (c : Host.Cell) (h : c ∈ bytesOf f) : c.1 < Config.bufBytes := by
  simp only [bytesOf, List.mem_map, List.mem_range] at h
  obtain ⟨i, hi, rfl⟩ := h
  exact hi

/-- BUF is in canonical form after reset. -/
theorem Memory.wf_reset : State.reset.buf.wf = true := rfl

/-- The stores of a command keep BUF's canonical form. -/
theorem State.storeBytes_wf (s : State) (l : List Host.Cell) (hl : ∀ c ∈ l, c.1 < Config.bufBytes)
    (h : s.buf.wf = true) : (s.storeBytes l).buf.wf = true :=
  Memory.wf_writes l s.buf hl h

/-- A host write keeps BUF's canonical form. -/
theorem State.writeReg_wf (s : State) (r : Reg) (v : Word) (h : s.buf.wf = true) :
    (s.writeReg r v).buf.wf = true := by
  cases r with
  | buf i => exact Memory.wf_write s.buf i.toNat _ (by have := i.isLt; simpa using this) h
  | _ => exact h

end Sys2Proof.Machine
end

