-- ==== Sys2Proof/Laws/State.lean ====
section
/-! SUPPORT. One lemma per field per named update of the state, so that no proof unfolds an update. -/

namespace Sys2Proof.Machine

/-! ### setR: `R <- v` -/

@[simp] theorem State.setR_aLo (s : State) (v : Wide) : (s.setR v).aLo = s.aLo := rfl
@[simp] theorem State.setR_aHi (s : State) (v : Wide) : (s.setR v).aHi = s.aHi := rfl
@[simp] theorem State.setR_bLo (s : State) (v : Wide) : (s.setR v).bLo = s.bLo := rfl
@[simp] theorem State.setR_bHi (s : State) (v : Wide) : (s.setR v).bHi = s.bHi := rfl
@[simp] theorem State.setR_rLo (s : State) (v : Wide) : (s.setR v).rLo = some (loWord v) := rfl
@[simp] theorem State.setR_rHi (s : State) (v : Wide) : (s.setR v).rHi = some (hiWord v) := rfl
@[simp] theorem State.setR_r2Lo (s : State) (v : Wide) : (s.setR v).r2Lo = s.r2Lo := rfl
@[simp] theorem State.setR_r2Hi (s : State) (v : Wide) : (s.setR v).r2Hi = s.r2Hi := rfl
@[simp] theorem State.setR_buf (s : State) (v : Wide) : (s.setR v).buf = s.buf := rfl
@[simp] theorem State.setR_status (s : State) (v : Wide) : (s.setR v).status = s.status := rfl
@[simp] theorem State.setR_pending (s : State) (v : Wide) : (s.setR v).pending = s.pending := rfl
@[simp] theorem State.setR_divWork (s : State) (v : Wide) : (s.setR v).divWork = s.divWork := rfl
@[simp] theorem State.setR_fault (s : State) (v : Wide) : (s.setR v).fault = s.fault := rfl
@[simp] theorem State.setR_wait (s : State) (v : Wide) : (s.setR v).wait = s.wait := rfl
@[simp] theorem State.setR_draws (s : State) (v : Wide) : (s.setR v).draws = s.draws := rfl
@[simp] theorem State.setR_host (s : State) (v : Wide) : (s.setR v).host = s.host := rfl
@[simp] theorem State.setR_replies (s : State) (v : Wide) : (s.setR v).replies = s.replies := rfl

/-! ### setR2: `R2 <- v` -/

@[simp] theorem State.setR2_aLo (s : State) (v : Wide) : (s.setR2 v).aLo = s.aLo := rfl
@[simp] theorem State.setR2_aHi (s : State) (v : Wide) : (s.setR2 v).aHi = s.aHi := rfl
@[simp] theorem State.setR2_bLo (s : State) (v : Wide) : (s.setR2 v).bLo = s.bLo := rfl
@[simp] theorem State.setR2_bHi (s : State) (v : Wide) : (s.setR2 v).bHi = s.bHi := rfl
@[simp] theorem State.setR2_rLo (s : State) (v : Wide) : (s.setR2 v).rLo = s.rLo := rfl
@[simp] theorem State.setR2_rHi (s : State) (v : Wide) : (s.setR2 v).rHi = s.rHi := rfl
@[simp] theorem State.setR2_r2Lo (s : State) (v : Wide) : (s.setR2 v).r2Lo = some (loWord v) := rfl
@[simp] theorem State.setR2_r2Hi (s : State) (v : Wide) : (s.setR2 v).r2Hi = some (hiWord v) := rfl
@[simp] theorem State.setR2_buf (s : State) (v : Wide) : (s.setR2 v).buf = s.buf := rfl
@[simp] theorem State.setR2_status (s : State) (v : Wide) : (s.setR2 v).status = s.status := rfl
@[simp] theorem State.setR2_pending (s : State) (v : Wide) : (s.setR2 v).pending = s.pending := rfl
@[simp] theorem State.setR2_divWork (s : State) (v : Wide) : (s.setR2 v).divWork = s.divWork := rfl
@[simp] theorem State.setR2_fault (s : State) (v : Wide) : (s.setR2 v).fault = s.fault := rfl
@[simp] theorem State.setR2_wait (s : State) (v : Wide) : (s.setR2 v).wait = s.wait := rfl
@[simp] theorem State.setR2_draws (s : State) (v : Wide) : (s.setR2 v).draws = s.draws := rfl
@[simp] theorem State.setR2_host (s : State) (v : Wide) : (s.setR2 v).host = s.host := rfl
@[simp] theorem State.setR2_replies (s : State) (v : Wide) : (s.setR2 v).replies = s.replies := rfl

/-! ### clearResults: `R, R2 <- UNWRITTEN` -/

@[simp] theorem State.clearResults_aLo (s : State) : (s.clearResults).aLo = s.aLo := rfl
@[simp] theorem State.clearResults_aHi (s : State) : (s.clearResults).aHi = s.aHi := rfl
@[simp] theorem State.clearResults_bLo (s : State) : (s.clearResults).bLo = s.bLo := rfl
@[simp] theorem State.clearResults_bHi (s : State) : (s.clearResults).bHi = s.bHi := rfl
@[simp] theorem State.clearResults_rLo (s : State) : (s.clearResults).rLo = none := rfl
@[simp] theorem State.clearResults_rHi (s : State) : (s.clearResults).rHi = none := rfl
@[simp] theorem State.clearResults_r2Lo (s : State) : (s.clearResults).r2Lo = none := rfl
@[simp] theorem State.clearResults_r2Hi (s : State) : (s.clearResults).r2Hi = none := rfl
@[simp] theorem State.clearResults_buf (s : State) : (s.clearResults).buf = s.buf := rfl
@[simp] theorem State.clearResults_status (s : State) : (s.clearResults).status = s.status := rfl
@[simp] theorem State.clearResults_pending (s : State) : (s.clearResults).pending = s.pending := rfl
@[simp] theorem State.clearResults_divWork (s : State) : (s.clearResults).divWork = s.divWork := rfl
@[simp] theorem State.clearResults_fault (s : State) : (s.clearResults).fault = s.fault := rfl
@[simp] theorem State.clearResults_wait (s : State) : (s.clearResults).wait = s.wait := rfl
@[simp] theorem State.clearResults_draws (s : State) : (s.clearResults).draws = s.draws := rfl
@[simp] theorem State.clearResults_host (s : State) : (s.clearResults).host = s.host := rfl
@[simp] theorem State.clearResults_replies (s : State) : (s.clearResults).replies = s.replies := rfl

/-! ### finish: the end of a completion -/

@[simp] theorem State.finish_aLo (s : State) (v : Byte) : (s.finish v).aLo = s.aLo := rfl
@[simp] theorem State.finish_aHi (s : State) (v : Byte) : (s.finish v).aHi = s.aHi := rfl
@[simp] theorem State.finish_bLo (s : State) (v : Byte) : (s.finish v).bLo = s.bLo := rfl
@[simp] theorem State.finish_bHi (s : State) (v : Byte) : (s.finish v).bHi = s.bHi := rfl
@[simp] theorem State.finish_rLo (s : State) (v : Byte) : (s.finish v).rLo = s.rLo := rfl
@[simp] theorem State.finish_rHi (s : State) (v : Byte) : (s.finish v).rHi = s.rHi := rfl
@[simp] theorem State.finish_r2Lo (s : State) (v : Byte) : (s.finish v).r2Lo = s.r2Lo := rfl
@[simp] theorem State.finish_r2Hi (s : State) (v : Byte) : (s.finish v).r2Hi = s.r2Hi := rfl
@[simp] theorem State.finish_buf (s : State) (v : Byte) : (s.finish v).buf = s.buf := rfl
@[simp] theorem State.finish_status (s : State) (v : Byte) : (s.finish v).status = v := rfl
@[simp] theorem State.finish_pending (s : State) (v : Byte) : (s.finish v).pending = none := rfl
@[simp] theorem State.finish_divWork (s : State) (v : Byte) : (s.finish v).divWork = s.divWork := rfl
@[simp] theorem State.finish_fault (s : State) (v : Byte) : (s.finish v).fault = s.fault := rfl
@[simp] theorem State.finish_wait (s : State) (v : Byte) : (s.finish v).wait = s.wait := rfl
@[simp] theorem State.finish_draws (s : State) (v : Byte) : (s.finish v).draws = s.draws := rfl
@[simp] theorem State.finish_host (s : State) (v : Byte) : (s.finish v).host = s.host := rfl
@[simp] theorem State.finish_replies (s : State) (v : Byte) : (s.finish v).replies = s.replies := rfl

/-! ### setWork: the division working registers -/

@[simp] theorem State.setWork_aLo (s : State) (w : DivWork) : (s.setWork w).aLo = s.aLo := rfl
@[simp] theorem State.setWork_aHi (s : State) (w : DivWork) : (s.setWork w).aHi = s.aHi := rfl
@[simp] theorem State.setWork_bLo (s : State) (w : DivWork) : (s.setWork w).bLo = s.bLo := rfl
@[simp] theorem State.setWork_bHi (s : State) (w : DivWork) : (s.setWork w).bHi = s.bHi := rfl
@[simp] theorem State.setWork_rLo (s : State) (w : DivWork) : (s.setWork w).rLo = s.rLo := rfl
@[simp] theorem State.setWork_rHi (s : State) (w : DivWork) : (s.setWork w).rHi = s.rHi := rfl
@[simp] theorem State.setWork_r2Lo (s : State) (w : DivWork) : (s.setWork w).r2Lo = s.r2Lo := rfl
@[simp] theorem State.setWork_r2Hi (s : State) (w : DivWork) : (s.setWork w).r2Hi = s.r2Hi := rfl
@[simp] theorem State.setWork_buf (s : State) (w : DivWork) : (s.setWork w).buf = s.buf := rfl
@[simp] theorem State.setWork_status (s : State) (w : DivWork) : (s.setWork w).status = s.status := rfl
@[simp] theorem State.setWork_pending (s : State) (w : DivWork) : (s.setWork w).pending = s.pending := rfl
@[simp] theorem State.setWork_divWork (s : State) (w : DivWork) : (s.setWork w).divWork = w := rfl
@[simp] theorem State.setWork_fault (s : State) (w : DivWork) : (s.setWork w).fault = s.fault := rfl
@[simp] theorem State.setWork_wait (s : State) (w : DivWork) : (s.setWork w).wait = s.wait := rfl
@[simp] theorem State.setWork_draws (s : State) (w : DivWork) : (s.setWork w).draws = s.draws := rfl
@[simp] theorem State.setWork_host (s : State) (w : DivWork) : (s.setWork w).host = s.host := rfl
@[simp] theorem State.setWork_replies (s : State) (w : DivWork) : (s.setWork w).replies = s.replies := rfl

/-! ### storeBytes: byte writes -/

@[simp] theorem State.storeBytes_aLo (s : State) (l : List Host.Cell) : (s.storeBytes l).aLo = s.aLo := rfl
@[simp] theorem State.storeBytes_aHi (s : State) (l : List Host.Cell) : (s.storeBytes l).aHi = s.aHi := rfl
@[simp] theorem State.storeBytes_bLo (s : State) (l : List Host.Cell) : (s.storeBytes l).bLo = s.bLo := rfl
@[simp] theorem State.storeBytes_bHi (s : State) (l : List Host.Cell) : (s.storeBytes l).bHi = s.bHi := rfl
@[simp] theorem State.storeBytes_rLo (s : State) (l : List Host.Cell) : (s.storeBytes l).rLo = s.rLo := rfl
@[simp] theorem State.storeBytes_rHi (s : State) (l : List Host.Cell) : (s.storeBytes l).rHi = s.rHi := rfl
@[simp] theorem State.storeBytes_r2Lo (s : State) (l : List Host.Cell) : (s.storeBytes l).r2Lo = s.r2Lo := rfl
@[simp] theorem State.storeBytes_r2Hi (s : State) (l : List Host.Cell) : (s.storeBytes l).r2Hi = s.r2Hi := rfl
@[simp] theorem State.storeBytes_buf (s : State) (l : List Host.Cell) :
    (s.storeBytes l).buf = l.foldl (fun m c => m.write c.1 c.2) s.buf := rfl
@[simp] theorem State.storeBytes_status (s : State) (l : List Host.Cell) :
    (s.storeBytes l).status = s.status := rfl
@[simp] theorem State.storeBytes_pending (s : State) (l : List Host.Cell) :
    (s.storeBytes l).pending = s.pending := rfl
@[simp] theorem State.storeBytes_divWork (s : State) (l : List Host.Cell) :
    (s.storeBytes l).divWork = s.divWork := rfl
@[simp] theorem State.storeBytes_fault (s : State) (l : List Host.Cell) :
    (s.storeBytes l).fault = s.fault := rfl
@[simp] theorem State.storeBytes_wait (s : State) (l : List Host.Cell) : (s.storeBytes l).wait = s.wait := rfl
@[simp] theorem State.storeBytes_draws (s : State) (l : List Host.Cell) :
    (s.storeBytes l).draws = s.draws := rfl
@[simp] theorem State.storeBytes_host (s : State) (l : List Host.Cell) : (s.storeBytes l).host = s.host := rfl
@[simp] theorem State.storeBytes_replies (s : State) (l : List Host.Cell) :
    (s.storeBytes l).replies = s.replies := rfl

/-! ### startCommand: a command start -/

@[simp] theorem State.startCommand_aLo (s : State) (c : Byte) : (s.startCommand c).aLo = s.aLo := rfl
@[simp] theorem State.startCommand_aHi (s : State) (c : Byte) : (s.startCommand c).aHi = s.aHi := rfl
@[simp] theorem State.startCommand_bLo (s : State) (c : Byte) : (s.startCommand c).bLo = s.bLo := rfl
@[simp] theorem State.startCommand_bHi (s : State) (c : Byte) : (s.startCommand c).bHi = s.bHi := rfl
@[simp] theorem State.startCommand_rLo (s : State) (c : Byte) : (s.startCommand c).rLo = s.rLo := rfl
@[simp] theorem State.startCommand_rHi (s : State) (c : Byte) : (s.startCommand c).rHi = s.rHi := rfl
@[simp] theorem State.startCommand_r2Lo (s : State) (c : Byte) : (s.startCommand c).r2Lo = s.r2Lo := rfl
@[simp] theorem State.startCommand_r2Hi (s : State) (c : Byte) : (s.startCommand c).r2Hi = s.r2Hi := rfl
@[simp] theorem State.startCommand_buf (s : State) (c : Byte) : (s.startCommand c).buf = s.buf := rfl
@[simp] theorem State.startCommand_status (s : State) (c : Byte) :
    (s.startCommand c).status = statusBusy := rfl
@[simp] theorem State.startCommand_pending (s : State) (c : Byte) : (s.startCommand c).pending = some c := rfl
@[simp] theorem State.startCommand_divWork (s : State) (c : Byte) :
    (s.startCommand c).divWork = s.divWork := rfl
@[simp] theorem State.startCommand_fault (s : State) (c : Byte) : (s.startCommand c).fault = s.fault := rfl
@[simp] theorem State.startCommand_wait (s : State) (c : Byte) :
    (s.startCommand c).wait = Config.latency s.draws c s.aLo s.aHi s.bLo s.bHi s.buf := rfl
@[simp] theorem State.startCommand_draws (s : State) (c : Byte) :
    (s.startCommand c).draws = s.draws + 1 := rfl
@[simp] theorem State.startCommand_host (s : State) (c : Byte) : (s.startCommand c).host = s.host := rfl
@[simp] theorem State.startCommand_replies (s : State) (c : Byte) :
    (s.startCommand c).replies = s.replies := rfl

/-! ### reply: the data word of a read -/

@[simp] theorem State.reply_aLo (s : State) (v : Word) : (s.reply v).aLo = s.aLo := rfl
@[simp] theorem State.reply_aHi (s : State) (v : Word) : (s.reply v).aHi = s.aHi := rfl
@[simp] theorem State.reply_bLo (s : State) (v : Word) : (s.reply v).bLo = s.bLo := rfl
@[simp] theorem State.reply_bHi (s : State) (v : Word) : (s.reply v).bHi = s.bHi := rfl
@[simp] theorem State.reply_rLo (s : State) (v : Word) : (s.reply v).rLo = s.rLo := rfl
@[simp] theorem State.reply_rHi (s : State) (v : Word) : (s.reply v).rHi = s.rHi := rfl
@[simp] theorem State.reply_r2Lo (s : State) (v : Word) : (s.reply v).r2Lo = s.r2Lo := rfl
@[simp] theorem State.reply_r2Hi (s : State) (v : Word) : (s.reply v).r2Hi = s.r2Hi := rfl
@[simp] theorem State.reply_buf (s : State) (v : Word) : (s.reply v).buf = s.buf := rfl
@[simp] theorem State.reply_status (s : State) (v : Word) : (s.reply v).status = s.status := rfl
@[simp] theorem State.reply_pending (s : State) (v : Word) : (s.reply v).pending = s.pending := rfl
@[simp] theorem State.reply_divWork (s : State) (v : Word) : (s.reply v).divWork = s.divWork := rfl
@[simp] theorem State.reply_fault (s : State) (v : Word) : (s.reply v).fault = s.fault := rfl
@[simp] theorem State.reply_wait (s : State) (v : Word) : (s.reply v).wait = s.wait := rfl
@[simp] theorem State.reply_draws (s : State) (v : Word) : (s.reply v).draws = s.draws := rfl
@[simp] theorem State.reply_host (s : State) (v : Word) : (s.reply v).host = s.host := rfl
@[simp] theorem State.reply_replies (s : State) (v : Word) : (s.reply v).replies = v :: s.replies := rfl

/-! ### failWith: a recorded failure -/

@[simp] theorem State.failWith_aLo (s : State) (c : FailCode) : (s.failWith c).aLo = s.aLo := rfl
@[simp] theorem State.failWith_aHi (s : State) (c : FailCode) : (s.failWith c).aHi = s.aHi := rfl
@[simp] theorem State.failWith_bLo (s : State) (c : FailCode) : (s.failWith c).bLo = s.bLo := rfl
@[simp] theorem State.failWith_bHi (s : State) (c : FailCode) : (s.failWith c).bHi = s.bHi := rfl
@[simp] theorem State.failWith_rLo (s : State) (c : FailCode) : (s.failWith c).rLo = none := rfl
@[simp] theorem State.failWith_rHi (s : State) (c : FailCode) : (s.failWith c).rHi = none := rfl
@[simp] theorem State.failWith_r2Lo (s : State) (c : FailCode) : (s.failWith c).r2Lo = none := rfl
@[simp] theorem State.failWith_r2Hi (s : State) (c : FailCode) : (s.failWith c).r2Hi = none := rfl
@[simp] theorem State.failWith_buf (s : State) (c : FailCode) : (s.failWith c).buf = s.buf := rfl
@[simp] theorem State.failWith_status (s : State) (c : FailCode) : (s.failWith c).status = statusFail c := rfl
@[simp] theorem State.failWith_pending (s : State) (c : FailCode) : (s.failWith c).pending = none := rfl
@[simp] theorem State.failWith_divWork (s : State) (c : FailCode) : (s.failWith c).divWork = s.divWork := rfl
@[simp] theorem State.failWith_fault (s : State) (c : FailCode) : (s.failWith c).fault = s.fault := rfl
@[simp] theorem State.failWith_wait (s : State) (c : FailCode) : (s.failWith c).wait = s.wait := rfl
@[simp] theorem State.failWith_draws (s : State) (c : FailCode) : (s.failWith c).draws = s.draws := rfl
@[simp] theorem State.failWith_host (s : State) (c : FailCode) : (s.failWith c).host = s.host := rfl
@[simp] theorem State.failWith_replies (s : State) (c : FailCode) : (s.failWith c).replies = s.replies := rfl

/-! ### resetEvent: the reset event -/

@[simp] theorem State.resetEvent_aLo (s : State) : (s.resetEvent).aLo = none := rfl
@[simp] theorem State.resetEvent_aHi (s : State) : (s.resetEvent).aHi = none := rfl
@[simp] theorem State.resetEvent_bLo (s : State) : (s.resetEvent).bLo = none := rfl
@[simp] theorem State.resetEvent_bHi (s : State) : (s.resetEvent).bHi = none := rfl
@[simp] theorem State.resetEvent_rLo (s : State) : (s.resetEvent).rLo = none := rfl
@[simp] theorem State.resetEvent_rHi (s : State) : (s.resetEvent).rHi = none := rfl
@[simp] theorem State.resetEvent_r2Lo (s : State) : (s.resetEvent).r2Lo = none := rfl
@[simp] theorem State.resetEvent_r2Hi (s : State) : (s.resetEvent).r2Hi = none := rfl
@[simp] theorem State.resetEvent_buf (s : State) : (s.resetEvent).buf = [] := rfl
@[simp] theorem State.resetEvent_status (s : State) : (s.resetEvent).status = 0x00 := rfl
@[simp] theorem State.resetEvent_pending (s : State) : (s.resetEvent).pending = none := rfl
@[simp] theorem State.resetEvent_divWork (s : State) : (s.resetEvent).divWork = State.reset.divWork := rfl
@[simp] theorem State.resetEvent_fault (s : State) : (s.resetEvent).fault = s.fault := rfl
@[simp] theorem State.resetEvent_wait (s : State) : (s.resetEvent).wait = 0 := rfl
@[simp] theorem State.resetEvent_draws (s : State) : (s.resetEvent).draws = s.draws := rfl
@[simp] theorem State.resetEvent_host (s : State) : (s.resetEvent).host = s.host := rfl
@[simp] theorem State.resetEvent_replies (s : State) : (s.resetEvent).replies = s.replies := rfl

end Sys2Proof.Machine
end

