-- ==== Sys2Proof/Laws/Ops.lean ====
section
/-! SUPPORT. What each shared operation can do, said once: the completion, the shapes of a command, the host's two
transactions, the fetch, the step and runs of steps. -/

namespace Sys2Proof.Machine

/-! ### Completion -/

/-- A success that writes R alone. -/
theorem State.complete_okR (s : State) (v : Wide) :
    s.complete (okR v) = (s.setR v).finish statusOk := rfl

/-- A success that stores bytes alone. -/
theorem State.complete_bytes (s : State) (l : List Host.Cell) :
    s.complete (.ok { bytes := l }) = (s.storeBytes l).finish statusOk := rfl

/-- A failure. -/
theorem State.complete_fail (s : State) (c : FailCode) : s.complete (.fail c) = s.failWith c := rfl

/-- The tuple after a success that writes R alone. -/
theorem State.view_complete_okR (s : State) (v : Wide) :
    (s.complete (okR v)).view = s.view.wroteR v := rfl

/-- The tuple after a failure. -/
theorem State.view_failWith (s : State) (c : FailCode) :
    (s.failWith c).view = s.view.failed (statusFail c) := rfl

/-- The tuple after a division. -/
theorem State.view_complete_division (s : State) (n d : Wide) :
    (s.complete (divOutcome n d)).view = s.view.wroteBoth (divloop n d).1 (divloop n d).2 := by
  simp only [divOutcome]
  cases divEngine n d <;> rfl

/-- A host read changes nothing of the tuple. -/
theorem State.view_reply (s : State) (v : Word) : (s.reply v).view = s.view := rfl

/-- The tuple after a command start. -/
theorem State.view_startCommand (s : State) (c : Byte) :
    (s.startCommand c).view = s.view.started c := rfl

/-- Every completion ends with nothing in flight. -/
theorem State.complete_pending (s : State) (o : CommandOutcome) : (s.complete o).pending = none := by
  cases o <;> rfl

/-- The tuple after a success that stores bytes alone. -/
theorem State.view_complete_bytes (s : State) (l : List Host.Cell) :
    (s.complete (.ok { bytes := l })).view =
      { s.view with buf := (s.storeBytes l).buf, status := 0x02, pending := none } := rfl

/-- Every completion ends with BUSY = 0. -/
theorem State.complete_busy (s : State) (o : CommandOutcome) : (s.complete o).busy = false := by
  cases o with
  | ok w => exact (by decide : statusOk.getLsbD 0 = false)
  | fail c =>
    cases c with
    | divz => exact (by decide : (statusFail .divz).getLsbD 0 = false)
    | badradix => exact (by decide : (statusFail .badradix).getLsbD 0 = false)
    | illop => exact (by decide : (statusFail .illop).getLsbD 0 = false)

/-- A success leaves STATUS 0x02. -/
theorem State.complete_ok_status (s : State) (w : Writes) : (s.complete (.ok w)).status = 0x02 := rfl

/-- A command start sets BUSY. -/
theorem State.startCommand_busy (s : State) (c : Byte) : (s.startCommand c).busy = true :=
  (by decide : statusBusy.getLsbD 0 = true)

/-- BUSY is bit 0 of STATUS: a state with STATUS 0x01 is busy. -/
theorem State.busy_of_status {s : State} (h : s.status = 0x01) : s.busy = true := by
  rw [State.busy, h]
  decide

/-- Every completion leaves the operands, the recorded fault and the model's own fields. -/
theorem State.complete_frame (s : State) (o : CommandOutcome) :
    samePlace s (s.complete o) .a ∧ samePlace s (s.complete o) .b ∧
    (s.complete o).fault = s.fault ∧ sameModelFields s (s.complete o) := by
  cases o with
  | ok w =>
    obtain ⟨r, r2, bytes, work⟩ := w
    cases r <;> cases r2 <;> cases work <;> simp [samePlace, sameModelFields, State.complete, State.succeed,
      State.applyWrites, State.putR, State.putR2, State.putWork]
  | fail c => simp [samePlace, sameModelFields, State.complete]

/-! ### Operands and the shapes of a command -/

/-- A register pair has a value exactly when both halves are written. -/
theorem wideOf_isSome (h l : Option Word) : (wideOf h l).isSome = (h.isSome && l.isSome) := by
  cases h <;> cases l <;> rfl

/-- A command that reads A completes if A is written whole. -/
theorem onA_of_some {s : State} {a : Wide} (h : s.operandA = some a) (f : Wide → CommandOutcome) :
    onA s f = .next (s.complete (f a)) := by
  simp only [onA, h]

/-- A command that reads A meets a fault if A is not written whole. -/
theorem onA_of_none {s : State} (h : s.operandA = none) (f : Wide → CommandOutcome) :
    onA s f = .fault .unwrittenRead := by
  simp only [onA, h]

/-- A command that reads A and B completes if both are written whole. -/
theorem onAB_of_some {s : State} {a b : Wide} (ha : s.operandA = some a) (hb : s.operandB = some b)
    (f : Wide → Wide → CommandOutcome) : onAB s f = .next (s.complete (f a b)) := by
  simp only [onAB, ha, hb]

/-- A command that reads A and B meets a fault if one of them is not written whole. -/
theorem onAB_of_none {s : State} (h : s.operandA = none ∨ s.operandB = none)
    (f : Wide → Wide → CommandOutcome) : onAB s f = .fault .unwrittenRead := by
  unfold onAB
  split
  · next ha hb => rcases h with h | h <;> simp_all
  · rfl

/-- A command that reads BUF completes if every byte is written. -/
theorem onBuf_of_some {s : State} {bs : List Byte} (h : s.operandBuf = some bs)
    (f : List Byte → CommandOutcome) : onBuf s f = .next (s.complete (f bs)) := by
  simp only [onBuf, h]

/-- A command that reads BUF meets a fault if a byte is not written. -/
theorem onBuf_of_none {s : State} (h : s.operandBuf = none) (f : List Byte → CommandOutcome) :
    onBuf s f = .fault .unwrittenRead := by
  simp only [onBuf, h]

/-- The shape of a command that reads A: it completes with the outcome on A, or meets the fault. -/
theorem onA_cases (s : State) (f : Wide → CommandOutcome) :
    (∃ a, s.operandA = some a ∧ onA s f = .next (s.complete (f a))) ∨
    (s.operandA = none ∧ onA s f = .fault .unwrittenRead) := by
  cases h : s.operandA with
  | none => exact .inr ⟨rfl, onA_of_none h f⟩
  | some a => exact .inl ⟨a, rfl, onA_of_some h f⟩

/-- The shape of a command that reads A and B. -/
theorem onAB_cases (s : State) (f : Wide → Wide → CommandOutcome) :
    (∃ a b, s.operandA = some a ∧ s.operandB = some b ∧ onAB s f = .next (s.complete (f a b))) ∨
    ((s.operandA = none ∨ s.operandB = none) ∧ onAB s f = .fault .unwrittenRead) := by
  cases ha : s.operandA with
  | none => exact .inr ⟨.inl rfl, onAB_of_none (.inl ha) f⟩
  | some a =>
    cases hb : s.operandB with
    | none => exact .inr ⟨.inr rfl, onAB_of_none (.inr hb) f⟩
    | some b => exact .inl ⟨a, b, rfl, rfl, onAB_of_some ha hb f⟩

/-- The shape of a command that reads BUF. -/
theorem onBuf_cases (s : State) (f : List Byte → CommandOutcome) :
    (∃ bs, s.operandBuf = some bs ∧ onBuf s f = .next (s.complete (f bs))) ∨
    (s.operandBuf = none ∧ onBuf s f = .fault .unwrittenRead) := by
  cases h : s.operandBuf with
  | none => exact .inr ⟨rfl, onBuf_of_none h f⟩
  | some bs => exact .inl ⟨bs, rfl, onBuf_of_some h f⟩

/-! ### Host transactions -/

/-- What a host write that answers a next state has done. -/
theorem execHwr_next {i : BitVec 5} {d : Word} {s t : State} (h : execHwr i d s = .next t) :
    ∃ r, regOfIndex i = some r ∧ r.writable = true ∧ s.busy = false ∧
      (r.narrow = true → d.extractLsb' 8 56 = 0) ∧ t = s.writeReg r d := by
  unfold execHwr at h
  split at h
  · cases h
  · next r hr =>
    split at h
    · cases h
    · next hc =>
      cases h
      simp only [Bool.or_eq_true, Bool.not_eq_true', Bool.and_eq_true, decide_eq_true_eq, not_or,
        Bool.not_eq_true, not_and, ne_eq, not_not, Bool.not_eq_false] at hc
      exact ⟨r, hr, hc.1.1, hc.2, hc.1.2, rfl⟩

/-- What a host read that answers a next state has done. -/
theorem execHrd_next {i : BitVec 5} {s t : State} (h : execHrd i s = .next t) :
    ∃ r v, regOfIndex i = some r ∧ (s.busy = true → r.hiddenWhileBusy = false) ∧
      s.readReg r = some v ∧ t = s.reply v := by
  unfold execHrd at h
  split at h
  · cases h
  · next r hr =>
    split at h
    · cases h
    · next hc =>
      split at h
      · next v hv =>
        cases h
        simp only [Bool.and_eq_true, not_and, Bool.not_eq_true] at hc
        exact ⟨r, v, hr, hc, hv, rfl⟩
      · cases h

/-- A host write of a writable register answers the write, when BUSY is 0 and an 8-bit register's data fits. -/
theorem execHwr_of {i : BitVec 5} {r : Reg} {d : Word} {s : State} (hr : regOfIndex i = some r)
    (hw : r.writable = true) (hn : r.narrow = true → d.extractLsb' 8 56 = 0) (hb : s.busy = false) :
    execHwr i d s = .next (s.writeReg r d) := by
  unfold execHwr
  rw [hr]
  have hc : (!r.writable || (r.narrow && decide (d.extractLsb' 8 56 ≠ 0)) || s.busy) = false := by
    cases hk : r.narrow with
    | false => simp only [hw, hb, Bool.not_true, Bool.false_and, Bool.or_false]
    | true => simp only [hw, hb, hn hk, ne_eq, not_true_eq_false, decide_false, Bool.and_false,
        Bool.not_true, Bool.or_false]
  simp only [hc, Bool.false_eq_true, if_false]

/-- A host read of a readable, written register answers its value. -/
theorem execHrd_of {i : BitVec 5} {r : Reg} {v : Word} {s : State} (hr : regOfIndex i = some r)
    (hb : s.busy = true → r.hiddenWhileBusy = false) (hv : s.readReg r = some v) :
    execHrd i s = .next (s.reply v) := by
  unfold execHrd
  rw [hr]
  have hc : (s.busy && r.hiddenWhileBusy) = false := by
    cases h : s.busy with
    | false => rfl
    | true => simp only [hb h, Bool.and_false]
  simp only [hc, Bool.false_eq_true, if_false, hv]

/-- The index map and the registers' indices agree (20_memory.md R51). -/
theorem regOfIndex_index (r : Reg) : regOfIndex r.index = some r := by
  cases r with
  | buf i => exact (by decide : ∀ n : BitVec 4, regOfIndex (Reg.buf n).index = some (.buf n)) i
  | _ => rfl

/-! ### Fetch and step -/

/-- What a step that answers a next state has done: run an instruction, or moved without one. -/
theorem step_next {s t : State} (h : step s = .next t) :
    (∃ i u, fetch s = .run i u ∧ exec i u = .next t) ∨ fetch s = .go t := by
  unfold step at h
  split at h
  · next i u hf => exact .inl ⟨i, u, hf, h⟩
  · next u hf => cases h; exact .inr hf
  · cases h

/-- A recorded fault stops every step. -/
theorem step_of_fault {s : State} {r : Fault} (h : s.fault = some r) : step s = .fault r := by
  simp only [step, fetch, h]

/-- With no recorded fault, the step is the completion of a due command or the host's next event. -/
theorem fetch_cases {s : State} (h : s.fault = none) :
    (s.pending = none ∧ fetch s = fetchHost s) ∨
    (∃ c, s.pending = some c ∧ s.wait = 0 ∧ fetch s = fetchCompletion c s) ∨
    (∃ c k, s.pending = some c ∧ s.wait = k + 1 ∧ fetch s = fetchHost { s with wait := k }) := by
  unfold fetch
  rw [h]
  cases hp : s.pending with
  | none => exact .inl ⟨rfl, rfl⟩
  | some c =>
    cases hw : s.wait with
    | zero => exact .inr (.inl ⟨c, rfl, rfl, rfl⟩)
    | succ k => exact .inr (.inr ⟨c, k, rfl, rfl, rfl⟩)

/-- The host's next event, by what stands first in its queue. -/
theorem fetchHost_cases (s : State) :
    (s.host = [] ∧ fetchHost s = .go s) ∨
    (∃ rest, s.host = .reset :: rest ∧ fetchHost s = .go { s with host := rest }.resetEvent) ∨
    (∃ rest, s.host = .poll :: rest ∧
      fetchHost s = .run (.hrd statusIndex) (if s.busy then s else { s with host := rest })) ∨
    (∃ h d rest i, s.host = .transaction h d :: rest ∧ decodeTransaction h d = .instr i ∧
      fetchHost s = .run i { s with host := rest }) ∨
    (∃ h d rest r, s.host = .transaction h d :: rest ∧ decodeTransaction h d = .reject r ∧
      fetchHost s = .stop .hostProtocol) := by
  cases hh : s.host with
  | nil => exact .inl ⟨rfl, by simp only [fetchHost, hh]⟩
  | cons e rest =>
    cases e with
    | reset => exact .inr (.inl ⟨rest, rfl, by simp only [fetchHost, hh]⟩)
    | poll => exact .inr (.inr (.inl ⟨rest, rfl, by simp only [fetchHost, hh]⟩))
    | transaction h d =>
      cases hd : decodeTransaction h d with
      | instr i => exact .inr (.inr (.inr (.inl ⟨h, d, rest, i, rfl, hd, by simp only [fetchHost, hh, hd]⟩)))
      | reject r => exact .inr (.inr (.inr (.inr ⟨h, d, rest, r, rfl, hd, by simp only [fetchHost, hh, hd]⟩)))

/-! ### Runs -/

/-- A run's first step, when it answers a next state. -/
theorem run_succ_of_next {n : Nat} {s t : State} (h : step s = .next t) :
    Host.Core.run Sys2Proof.core (n + 1) s = Host.Core.run Sys2Proof.core n t := by
  have h' : Sys2Proof.core.step s = .next t := h
  simp only [Host.Core.run, h']

/-- A run of one step is the step. -/
theorem run_one (s : State) : Host.Core.run Sys2Proof.core 1 s = step s := by
  have e : Sys2Proof.core.step s = step s := rfl
  simp only [Host.Core.run]
  rw [e]
  cases step s <;> rfl

/-- A run that ends in `t` goes on from `t`. -/
theorem run_add {m : Nat} (n : Nat) {s t : State} (h : RunsTo m s t) :
    Host.Core.run Sys2Proof.core (m + n) s = Host.Core.run Sys2Proof.core n t := by
  induction m generalizing s with
  | zero =>
    cases h
    rw [Nat.zero_add]
  | succ m ih =>
    unfold RunsTo at h
    have e : Sys2Proof.core.step s = step s := rfl
    cases hs : step s with
    | next u =>
      rw [run_succ_of_next hs] at h
      rw [Nat.add_right_comm, run_succ_of_next hs]
      exact ih h
    | fault r =>
      simp only [Host.Core.run, e, hs] at h
      cases h
    | refused r =>
      simp only [Host.Core.run, e, hs] at h
      cases h

end Sys2Proof.Machine
end

