-- ==== Sys2Proof/Laws/Exec.lean ====
section
/-! SUPPORT. Everything a command can do, said once: which completion its next state is. Proofs over all commands split on
this lemma and never unfold a meaning. -/

namespace Sys2Proof.Machine

/-- The state after a division: quotient in R, remainder in R2, STATUS 0x02, some contents of the working registers. -/
theorem State.complete_division (s : State) (n d : Wide) :
    ∃ w, s.complete (divOutcome n d) =
      (((s.setR (divloop n d).1).setR2 (divloop n d).2).setWork w).finish statusOk := by
  simp only [divOutcome]
  cases divEngine n d with
  | none => exact ⟨s.divWork, rfl⟩
  | some w => exact ⟨w, rfl⟩

/-- The bytes of BUF after the 16 stores of an encode command. -/
theorem State.read_storeBytes (s : State) (f : Nat → Byte) (j : Nat) :
    (s.storeBytes (bytesOf f)).buf.read j = if j < 16 then some (f j) else s.buf.read j := by
  have run : ∀ (l : List Nat) (m : Memory),
      Memory.read ((l.map fun i => ((i, f i) : Host.Cell)).foldl (fun m c => Memory.write m c.1 c.2) m) j =
        if j ∈ l then some (f j) else m.read j := by
    intro l
    induction l with
    | nil => intro m; simp
    | cons a l ih =>
      intro m
      simp only [List.map_cons, List.foldl_cons]
      rw [ih, Memory.read_write]
      by_cases h1 : j ∈ l <;> by_cases h2 : j = a <;> simp_all
  simpa [bytesOf, Config.bufBytes] using run (List.range 16) s.buf

/-- A next state of a command that reads A is a completion on A. -/
theorem onA_next {s t : State} {f : Wide → CommandOutcome} (h : onA s f = .next t) :
    ∃ a, s.operandA = some a ∧ t = s.complete (f a) := by
  rcases onA_cases s f with ⟨a, ha, e⟩ | ⟨_, e⟩ <;> rw [e] at h <;> cases h
  exact ⟨a, ha, rfl⟩

/-- A next state of a command that reads A and B is a completion on them. -/
theorem onAB_next {s t : State} {f : Wide → Wide → CommandOutcome} (h : onAB s f = .next t) :
    ∃ a b, s.operandA = some a ∧ s.operandB = some b ∧ t = s.complete (f a b) := by
  rcases onAB_cases s f with ⟨a, b, ha, hb, e⟩ | ⟨_, e⟩ <;> rw [e] at h <;> cases h
  exact ⟨a, b, ha, hb, rfl⟩

/-- A next state of a command that reads BUF is a completion on its bytes. -/
theorem onBuf_next {s t : State} {f : List Byte → CommandOutcome} (h : onBuf s f = .next t) :
    ∃ bs, s.operandBuf = some bs ∧ t = s.complete (f bs) := by
  rcases onBuf_cases s f with ⟨bs, hb, e⟩ | ⟨_, e⟩ <;> rw [e] at h <;> cases h
  exact ⟨bs, hb, rfl⟩

/-- What the next state of a command is: a success that writes R alone, a division, the 16 stores of an encode command, or
one of the two failures of a defined opcode. -/
theorem exec_command_next {i : Instr} {s t : State} (hi : i.isCommand = true) (h : exec i s = .next t) :
    (∃ v, t = s.complete (okR v) ∧ writesOf i = [.r]) ∨
    (∃ a b, s.operandA = some a ∧ s.operandB = some b ∧ b ≠ 0 ∧ t = s.complete (divOutcome a b) ∧
      (i = .divmod ∨ i = .rdiv)) ∨
    (∃ f, t = s.complete (.ok { bytes := bytesOf f }) ∧ (i = .encbe ∨ i = .encle)) ∨
    (t = s.complete (.fail .divz) ∧ i = .divmod ∧ s.operandB = some 0) ∨
    (t = s.complete (.fail .badradix) ∧ i = .rdiv ∧ ∃ b, s.operandB = some b ∧ radixValid b = false) := by
  cases i with
  | hwr => cases hi
  | hrd => cases hi
  | divmod =>
    obtain ⟨a, b, ha, hb, rfl⟩ := onAB_next h
    by_cases h0 : b = 0
    · exact .inr (.inr (.inr (.inl ⟨by rw [if_pos h0], rfl, by rw [hb, h0]⟩)))
    · exact .inr (.inl ⟨a, b, ha, hb, h0, by rw [if_neg h0], .inl rfl⟩)
  | rdiv =>
    obtain ⟨a, b, ha, hb, rfl⟩ := onAB_next h
    by_cases h0 : radixValid b = true
    · refine .inr (.inl ⟨a, b, ha, hb, ?_, by rw [if_pos h0], .inr rfl⟩)
      rintro rfl
      cases h0
    · exact .inr (.inr (.inr (.inr ⟨by rw [if_neg h0], rfl, b, hb, by simpa using h0⟩)))
  | encbe =>
    obtain ⟨a, _, rfl⟩ := onA_next h
    exact .inr (.inr (.inl ⟨_, rfl, .inl rfl⟩))
  | encle =>
    obtain ⟨a, _, rfl⟩ := onA_next h
    exact .inr (.inr (.inl ⟨_, rfl, .inr rfl⟩))
  | decbe =>
    obtain ⟨bs, _, rfl⟩ := onBuf_next h
    exact .inl ⟨_, rfl, rfl⟩
  | decle =>
    obtain ⟨bs, _, rfl⟩ := onBuf_next h
    exact .inl ⟨_, rfl, rfl⟩
  | inc | dec | neg | not | msbidx | lsbidx | popcnt =>
    obtain ⟨a, _, rfl⟩ := onA_next h
    exact .inl ⟨_, rfl, rfl⟩
  | _ =>
    obtain ⟨a, b, _, _, rfl⟩ := onAB_next h
    exact .inl ⟨_, rfl, rfl⟩

end Sys2Proof.Machine
end

