-- ==== Sys2Proof/Laws/PerInstr.lean ====
section
/-! SUPPORT. Facts per instruction as syntax. OpcodeFamily: the upper four bits of a command's opcode name its family, and
bits 6:5 of a transaction's header are 00 (30_encoding.md R80, R83). -/

namespace Sys2Proof.Laws.OpcodeFamily

/-- The family number of a command (30_encoding.md R80): 1 compare, 2 add/subtract, 3 multiply, 4 bitwise and shift,
5 bit-length, 6 divide, 7 radix, 8 byte codec; none for a transaction. -/
def familyOf : Instr → Option (BitVec 4)
  | .cmp | .eq | .ne | .lt | .le | .gt | .ge => some 1
  | .add | .sub | .inc | .dec | .neg => some 2
  | .mul => some 3
  | .and | .or | .xor | .not | .shl | .shr => some 4
  | .msbidx | .lsbidx | .popcnt => some 5
  | .divmod => some 6
  | .rdiv => some 7
  | .encbe | .encle | .decbe | .decle => some 8
  | .hwr _ _ => none
  | .hrd _ => none

/-- A command's encoding has its family in bits 7:4; a transaction's header has 00 in bits 6:5. -/
def Statement (i : Instr) : Prop :=
  match encode i with
  | .command c => familyOf i = some (c.extractLsb' 4 4)
  | .transaction h _ => familyOf i = none ∧ h.extractLsb' 5 2 = 0

theorem cmp : Statement .cmp := rfl

theorem eq : Statement .eq := rfl

theorem ne : Statement .ne := rfl

theorem lt : Statement .lt := rfl

theorem le : Statement .le := rfl

theorem gt : Statement .gt := rfl

theorem ge : Statement .ge := rfl

theorem add : Statement .add := rfl

theorem sub : Statement .sub := rfl

theorem inc : Statement .inc := rfl

theorem dec : Statement .dec := rfl

theorem neg : Statement .neg := rfl

theorem mul : Statement .mul := rfl

theorem and : Statement .and := rfl

theorem or : Statement .or := rfl

theorem xor : Statement .xor := rfl

theorem not : Statement .not := rfl

theorem shl : Statement .shl := rfl

theorem shr : Statement .shr := rfl

theorem msbidx : Statement .msbidx := rfl

theorem lsbidx : Statement .lsbidx := rfl

theorem popcnt : Statement .popcnt := rfl

theorem divmod : Statement .divmod := rfl

theorem rdiv : Statement .rdiv := rfl

theorem encbe : Statement .encbe := rfl

theorem encle : Statement .encle := rfl

theorem decbe : Statement .decbe := rfl

theorem decle : Statement .decle := rfl

theorem hwr (index : BitVec 5) (data : Word) : Statement (.hwr index data) := by
  have h : ∀ n : BitVec 5, (writeHeader n).extractLsb' 5 2 = 0 := by decide
  exact ⟨rfl, h index⟩

theorem hrd (index : BitVec 5) : Statement (.hrd index) := by
  have h : ∀ n : BitVec 5, (readHeader n).extractLsb' 5 2 = 0 := by decide
  exact ⟨rfl, h index⟩

end Sys2Proof.Laws.OpcodeFamily
end

