-- ==== Sys2Proof/Laws/Wide.lean ====
section
/-! SUPPORT. The two words of a 128-bit value as numbers (00_scope.md R10), so that word-level algorithms reduce to
arithmetic on naturals. -/

namespace Sys2Proof.Machine

/-- `hi(v)` is `v` divided by `2^64`. -/
theorem toNat_hiWord (v : Wide) : (hiWord v).toNat = v.toNat / 2 ^ 64 := by
  have := v.isLt
  simp only [hiWord, BitVec.extractLsb'_toNat, Nat.shiftRight_eq_div_pow]
  omega

/-- `lo(v)` is `v` modulo `2^64`. -/
theorem toNat_loWord (v : Wide) : (loWord v).toNat = v.toNat % 2 ^ 64 := by
  simp only [loWord, BitVec.extractLsb'_toNat, Nat.shiftRight_zero]

/-- `{h, l}` is `h * 2^64 + l`. -/
theorem toNat_joinWords (h l : Word) : (joinWords h l).toNat = h.toNat * 2 ^ 64 + l.toNat := by
  have := l.isLt
  unfold joinWords
  rw [BitVec.toNat_append, Nat.shiftLeft_eq, Nat.mul_comm, Nat.two_pow_add_eq_or_of_lt this]

/-- The high word of `{h, l}`. -/
@[simp] theorem hiWord_joinWords (h l : Word) : hiWord (joinWords h l) = h := by
  have := l.isLt
  apply BitVec.eq_of_toNat_eq
  rw [toNat_hiWord, toNat_joinWords]
  omega

/-- The low word of `{h, l}`. -/
@[simp] theorem loWord_joinWords (h l : Word) : loWord (joinWords h l) = l := by
  have := l.isLt
  apply BitVec.eq_of_toNat_eq
  rw [toNat_loWord, toNat_joinWords]
  omega

/-- A value is its two words joined. -/
@[simp] theorem joinWords_words (v : Wide) : joinWords (hiWord v) (loWord v) = v := by
  apply BitVec.eq_of_toNat_eq
  rw [toNat_joinWords, toNat_hiWord, toNat_loWord]
  omega

/-- Two values are equal when their words are. -/
theorem wide_ext {a b : Wide} (hh : hiWord a = hiWord b) (hl : loWord a = loWord b) : a = b := by
  rw [← joinWords_words a, ← joinWords_words b, hh, hl]

/-- A bit of a value is a bit of one of its words (00_scope.md R10). -/
theorem getLsbD_joinWords (h l : Word) (i : Nat) :
    (joinWords h l).getLsbD i = if i < 64 then l.getLsbD i else h.getLsbD (i - 64) := by
  unfold joinWords
  rw [BitVec.getLsbD_append]

/-- A bit of the high word. -/
theorem getLsbD_hiWord (v : Wide) (i : Nat) : (hiWord v).getLsbD i = (decide (i < 64) && v.getLsbD (64 + i)) := by
  simp only [hiWord, BitVec.getLsbD_extractLsb']

/-- A bit of the low word. -/
theorem getLsbD_loWord (v : Wide) (i : Nat) : (loWord v).getLsbD i = (decide (i < 64) && v.getLsbD i) := by
  simp only [loWord, BitVec.getLsbD_extractLsb', Nat.zero_add]

end Sys2Proof.Machine
end

