-- ==== Sys2Proof/Tests/Slice0.lean ====
section
/-! SUPPORT. The package's own tests. Expected results come from the vectors of 95_test_vectors.md, named in each
docstring, or from the encoding tables of 30_encoding.md; then one witness for each statement with hypotheses. -/

namespace Sys2Proof.Tests

open Sys2Proof Sys2Proof.Machine

/-! ### Helpers -/

/-- A value from its words. -/
def w2 (h l : Nat) : Wide := joinWords (BitVec.ofNat 64 h) (BitVec.ofNat 64 l)

/-- The state after reset with A and B written. -/
def ab (a b : Wide) : State :=
  { State.reset with
    aHi := some (hiWord a), aLo := some (loWord a), bHi := some (hiWord b), bLo := some (loWord b) }

/-- The state after reset with these bytes in BUF from 0 on. -/
def bytesFrom (l : List Byte) : State := { State.reset with buf := l.mapIdx fun i b => (i, b) }

/-- The same with a command in flight and its draw run out. -/
def busyAB (a b : Wide) : State := { ab a b with pending := some 0x20, status := 0x01 }

/-- A part of the next state, if the result is one. -/
def got {α : Type} (o : Result) (f : State → α) : Option α :=
  match o with
  | .next t => some (f t)
  | .fault _ => none
  | .refused _ => none

/-- The fault, if the result is one. -/
def faultOf (o : Result) : Option Fault :=
  match o with
  | .next _ => none
  | .fault r => some r
  | .refused _ => none

/-- R, R2 and STATUS of a result. -/
def outcome (o : Result) : Option (Option Wide × Option Wide × Byte) :=
  got o fun t => (t.resultR, t.resultR2, t.status)

/-- R of a result. -/
def rOf (o : Result) : Option Wide := (got o State.resultR).bind id

/-- BUF of a result, byte 0 first. -/
def bufOf (o : Result) : Option (List Byte) := (got o State.operandBuf).bind id

/-- The general operand of the vectors, `a` of V4. -/
def va : Wide := w2 0x0123456789ABCDEF 0xFEDCBA9876543210

/-- The second operand of V4, `b`. -/
def vb : Wide := w2 0xFFFF0000FFFF0000 0x00FF00FF00FF00FF

/-- The bytes of vectors BC1 and BC7. -/
def codecBytes : List Byte :=
  [0x01, 0x02, 0x03, 0x04, 0x05, 0x06, 0x07, 0x08, 0x11, 0x12, 0x13, 0x14, 0x15, 0x16, 0x17, 0x18]

/-- A data word of ones. -/
def wideMaxWord : Word := BitVec.allOnes 64

/-- The host presents a malformed header. -/
def badHeader : State := { State.reset with host := [.transaction 0x20 0] }

/-- The same while a command is in flight. -/
def busyBadHeader : State := { busyAB 5 0 with wait := 1, host := [.transaction 0x20 0] }

/-- A reserved opcode in flight, its draw run out. -/
def illegal : State := { State.reset with pending := some 0x17, status := 0x01 }

/-- The host writes A_LO. -/
def hostWrites : State := { State.reset with host := [.transaction 0x80 5] }

/-- The host reads STATUS while a command is in flight. -/
def busyReads : State := { busyAB 5 0 with wait := 1, host := [.transaction 0x08 0] }

/-- The host polls while a command is in flight, and then reads R_LO. -/
def polling : State := { busyAB 5 0 with wait := 3, host := [.poll, .transaction 0x04 0] }

/-! ### WellFormed: a term for each check, which it refuses -/

/-- A reserved index is refused, for a write and for a read, at both ends of the range (R51). -/
theorem test_wellFormed_reserved :
    (Instr.hwr 0x0A 0).wellFormed = false ∧ (Instr.hwr 0x0F 0).wellFormed = false ∧
    (Instr.hrd 0x0A).wellFormed = false ∧ (Instr.hrd 0x0F).wellFormed = false := by decide

/-- A write of a read-only register is refused, R_LO to STATUS (R51). -/
theorem test_wellFormed_readOnly :
    (Instr.hwr 0x04 0).wellFormed = false ∧ (Instr.hwr 0x08 0).wellFormed = false := by decide

/-- Data bits 63:8 of an 8-bit register must be zero (R54). -/
theorem test_wellFormed_oversized :
    (Instr.hwr 0x09 0x120).wellFormed = false ∧ (Instr.hwr 0x10 0x100).wellFormed = false := by decide

/-- Terms next to each check's bounds are accepted. -/
theorem test_wellFormed_accepts :
    (Instr.hwr 0x03 0x100).wellFormed = true ∧ (Instr.hwr 0x09 0xFF).wellFormed = true ∧
    (Instr.hwr 0x1F 0xFF).wellFormed = true ∧ (Instr.hrd 0x09).wellFormed = true ∧
    (Instr.hrd 0x10).wellFormed = true ∧ Instr.cmp.wellFormed = true := by decide

/-! ### Decode: the words of 30_encoding.md R82 and R83, bit by bit -/

/-- Compare, 0x10 to 0x16. -/
theorem test_decode_compare :
    decodeCommand 0b00010000 = .instr .cmp ∧ decodeCommand 0b00010001 = .instr .eq ∧
    decodeCommand 0b00010010 = .instr .ne ∧ decodeCommand 0b00010011 = .instr .lt ∧
    decodeCommand 0b00010100 = .instr .le ∧ decodeCommand 0b00010101 = .instr .gt ∧
    decodeCommand 0b00010110 = .instr .ge := by decide

/-- Add and subtract, 0x20 to 0x24. -/
theorem test_decode_addSub :
    decodeCommand 0b00100000 = .instr .add ∧ decodeCommand 0b00100001 = .instr .sub ∧
    decodeCommand 0b00100010 = .instr .inc ∧ decodeCommand 0b00100011 = .instr .dec ∧
    decodeCommand 0b00100100 = .instr .neg := by decide

/-- Multiply, bitwise and shift, 0x30 to 0x49. -/
theorem test_decode_mulBitwiseShift :
    decodeCommand 0b00110000 = .instr .mul ∧ decodeCommand 0b01000000 = .instr .and ∧
    decodeCommand 0b01000001 = .instr .or ∧ decodeCommand 0b01000010 = .instr .xor ∧
    decodeCommand 0b01000011 = .instr .not ∧ decodeCommand 0b01001000 = .instr .shl ∧
    decodeCommand 0b01001001 = .instr .shr := by decide

/-- Bit length, divide, radix and codec, 0x50 to 0x83. -/
theorem test_decode_bitlenDivideCodec :
    decodeCommand 0b01010000 = .instr .msbidx ∧ decodeCommand 0b01010001 = .instr .lsbidx ∧
    decodeCommand 0b01010010 = .instr .popcnt ∧ decodeCommand 0b01100000 = .instr .divmod ∧
    decodeCommand 0b01110000 = .instr .rdiv ∧ decodeCommand 0b10000000 = .instr .encbe ∧
    decodeCommand 0b10000001 = .instr .encle ∧ decodeCommand 0b10000010 = .instr .decbe ∧
    decodeCommand 0b10000011 = .instr .decle := by decide

/-- The headers R83 writes out: write A_LO 0x80, read STATUS 0x08, write CMD 0x89; and BUF15's two. -/
theorem test_decode_headers :
    decodeTransaction 0b10000000 7 = .instr (.hwr 0b00000 7) ∧
    decodeTransaction 0b00001000 0 = .instr (.hrd 0b01000) ∧
    decodeTransaction 0b10001001 0x20 = .instr (.hwr 0b01001 0x20) ∧
    decodeTransaction 0b10011111 0xAB = .instr (.hwr 0b11111 0xAB) ∧
    decodeTransaction 0b00011111 0 = .instr (.hrd 0b11111) := by decide

/-- Opcodes between the families and at the ends are reserved (FL8 to FL11); headers with either of bits 6:5 set do not
decode (FL27). -/
theorem test_decode_rejects :
    decodeCommand 0x00 = .reject .reservedOpcode ∧ decodeCommand 0xFF = .reject .reservedOpcode ∧
    decodeCommand 0x17 = .reject .reservedOpcode ∧ decodeCommand 0x44 = .reject .reservedOpcode ∧
    decodeTransaction 0xA0 0 = .reject .reservedHeaderBits ∧
    decodeTransaction 0x40 0 = .reject .reservedHeaderBits := by decide

/-- The opcode map has 28 rows, no opcode twice and no command twice (R82). -/
theorem test_opcodeMap_rows :
    opcodeMap.length = 28 ∧ (opcodeMap.map Prod.fst).Nodup ∧ (opcodeMap.map Prod.snd).Nodup := by decide

/-- A table word: a command in its 8 bits, a read header in its 8 bits, a write in 72 bits with its data word in bits 71:8
(log entry 9). -/
theorem test_decodeTableWord :
    decodeTableWord 8 0x24 = some .neg ∧ decodeTableWord 8 0x08 = some (.hrd 0x08) ∧
    decodeTableWord 8 0x85 = some (.hwr 0x05 0) ∧
    decodeTableWord 72 0x1280 = some (.hwr 0x00 0x12) := by decide

/-! ### Commands: vectors of 95_test_vectors.md -/

/-- CP4, CP10: the high word decides, and bit 127 set is larger. -/
theorem test_cmp_greater :
    rOf (exec .cmp (ab (w2 1 0) (w2 0 0xFFFFFFFFFFFFFFFF))) = some 1 ∧
    rOf (exec .cmp (ab (w2 0x8000000000000000 0) (w2 0x7FFFFFFFFFFFFFFF 0xFFFFFFFFFFFFFFFF))) = some 1 := by
  decide

/-- CP3, CP8, CP6. -/
theorem test_cmp_lessEqual :
    rOf (exec .cmp (ab 0 1)) = some wideMax ∧ rOf (exec .cmp (ab (w2 5 3) (w2 5 4))) = some wideMax ∧
    rOf (exec .cmp (ab wideMax wideMax)) = some 0 := by decide

/-- CP5, the predicates. -/
theorem test_predicates_less :
    rOf (exec .eq (ab (w2 0 0xFFFFFFFFFFFFFFFF) (w2 1 0))) = some 0 ∧
    rOf (exec .ne (ab (w2 0 0xFFFFFFFFFFFFFFFF) (w2 1 0))) = some 1 ∧
    rOf (exec .lt (ab (w2 0 0xFFFFFFFFFFFFFFFF) (w2 1 0))) = some 1 ∧
    rOf (exec .le (ab (w2 0 0xFFFFFFFFFFFFFFFF) (w2 1 0))) = some 1 ∧
    rOf (exec .gt (ab (w2 0 0xFFFFFFFFFFFFFFFF) (w2 1 0))) = some 0 ∧
    rOf (exec .ge (ab (w2 0 0xFFFFFFFFFFFFFFFF) (w2 1 0))) = some 0 := by decide

/-- CP6, the predicates on equal operands. -/
theorem test_predicates_equal :
    rOf (exec .eq (ab wideMax wideMax)) = some 1 ∧ rOf (exec .ne (ab wideMax wideMax)) = some 0 ∧
    rOf (exec .lt (ab wideMax wideMax)) = some 0 ∧ rOf (exec .le (ab wideMax wideMax)) = some 1 ∧
    rOf (exec .gt (ab wideMax wideMax)) = some 0 ∧ rOf (exec .ge (ab wideMax wideMax)) = some 1 := by decide

/-- AS2, AS7. -/
theorem test_add :
    rOf (exec .add (ab wideMax 1)) = some 0 ∧
    rOf (exec .add (ab va (w2 0x1111111111111111 0x0123456789ABCDF0))) =
      some (w2 0x123456789ABCDF01 0) := by decide

/-- AS8, AS10. -/
theorem test_sub :
    rOf (exec .sub (ab 0 1)) = some wideMax ∧
    rOf (exec .sub (ab (w2 5 3) (w2 2 4))) = some (w2 2 0xFFFFFFFFFFFFFFFF) := by decide

/-- AS15, AS16, AS19, AS20. -/
theorem test_incDec :
    rOf (exec .inc (ab wideMax 0)) = some 0 ∧
    rOf (exec .inc (ab (w2 0 0xFFFFFFFFFFFFFFFF) 0)) = some (w2 1 0) ∧
    rOf (exec .dec (ab 0 0)) = some wideMax ∧
    rOf (exec .dec (ab (w2 1 0) 0)) = some (w2 0 0xFFFFFFFFFFFFFFFF) := by decide

/-- AS28, AS25, AS23. -/
theorem test_neg :
    rOf (exec .neg (ab (w2 3 5) 0)) = some (w2 0xFFFFFFFFFFFFFFFC 0xFFFFFFFFFFFFFFFB) ∧
    rOf (exec .neg (ab (w2 1 0) 0)) = some (w2 0xFFFFFFFFFFFFFFFF 0) ∧
    rOf (exec .neg (ab 0 0)) = some 0 := by decide

/-- M10, M8. -/
theorem test_mul :
    rOf (exec .mul (ab va (w2 0x0F0F0F0F0F0F0F0F 0x1234567890ABCDEF))) =
      some (w2 0x55075B3FA4385B53 0x236D88FE55618CF0) ∧
    rOf (exec .mul (ab (w2 1 2) (w2 3 4))) = some (w2 0xA 8) := by decide

/-- BW1 to BW4. -/
theorem test_bitwise :
    rOf (exec .and (ab va vb)) = some (w2 0x0123000089AB0000 0x00DC009800540010) ∧
    rOf (exec .or (ab va vb)) = some (w2 0xFFFF4567FFFFCDEF 0xFEFFBAFF76FF32FF) ∧
    rOf (exec .xor (ab va vb)) = some (w2 0xFEDC45677654CDEF 0xFE23BA6776AB32EF) ∧
    rOf (exec .not (ab va 0)) = some (w2 0xFEDCBA9876543210 0x0123456789ABCDEF) := by decide

/-- S2, S5, S7. -/
theorem test_shift_within :
    rOf (exec .shl (ab va 1)) = some (w2 0x02468ACF13579BDF 0xFDB97530ECA86420) ∧
    rOf (exec .shr (ab va 1)) = some (w2 0x0091A2B3C4D5E6F7 0xFF6E5D4C3B2A1908) ∧
    rOf (exec .shl (ab va 64)) = some (w2 0xFEDCBA9876543210 0) ∧
    rOf (exec .shr (ab va 100)) = some (w2 0 0x123456) := by decide

/-- S14, S9, S12: one bit at 127, nothing at 128, the high word of B counts. -/
theorem test_shift_bounds :
    rOf (exec .shl (ab wideMax 127)) = some (w2 0x8000000000000000 0) ∧
    rOf (exec .shr (ab wideMax 127)) = some 1 ∧ rOf (exec .shl (ab wideMax 128)) = some 0 ∧
    rOf (exec .shr (ab va (w2 1 4))) = some 0 := by decide

/-- BL1, BL11, BL9. -/
theorem test_bitlen :
    rOf (exec .msbidx (ab 0 0)) = some 0 ∧ rOf (exec .msbidx (ab va 0)) = some 121 ∧
    rOf (exec .lsbidx (ab va 0)) = some 5 ∧
    rOf (exec .lsbidx (ab (w2 0x8000000000000000 0) 0)) = some 128 := by decide

set_option maxRecDepth 2000 in
/-- BL11, BL10. -/
theorem test_popcnt :
    rOf (exec .popcnt (ab va 0)) = some 64 ∧ rOf (exec .popcnt (ab wideMax 0)) = some 128 := by decide

/-- DV1, DV2, DV6. -/
theorem test_divmod :
    outcome (exec .divmod (ab 100 7)) = some (some 14, some 2, 0x02) ∧
    outcome (exec .divmod (ab 5 0)) = some (none, none, 0x04) ∧
    outcome (exec .divmod (ab 5 7)) = some (some 0, some 5, 0x02) := by decide

/-- DV16, and its 8 iterations. -/
theorem test_divmod_general :
    outcome (exec .divmod (ab vb va)) =
      some (some 224, some (w2 0x0122456889AACE00 0xFFDBBB97775332FF), 0x02) ∧
    divIterations vb va = 8 := by decide

/-- X1, X10, X12, X13. -/
theorem test_rdiv :
    outcome (exec .rdiv (ab 255 16)) = some (some 15, some 15, 0x02) ∧
    outcome (exec .rdiv (ab 100 0)) = some (none, none, 0x08) ∧
    outcome (exec .rdiv (ab 100 65)) = some (none, none, 0x08) ∧
    outcome (exec .rdiv (ab 100 (w2 1 0xA))) = some (none, none, 0x08) := by decide

/-- BC1, BC2. -/
theorem test_encode :
    bufOf (exec .encbe (ab (w2 0x0102030405060708 0x1112131415161718) 0)) = some codecBytes ∧
    bufOf (exec .encle (ab (w2 0x0102030405060708 0x1112131415161718) 0)) = some codecBytes.reverse := by
  decide

/-- BC7, BC8. -/
theorem test_decode_bytes :
    rOf (exec .decbe (bytesFrom codecBytes)) = some (w2 0x0102030405060708 0x1112131415161718) ∧
    rOf (exec .decle (bytesFrom codecBytes)) = some (w2 0x1817161514131211 0x0807060504030201) := by decide

/-! ### Faults and the host port: V11 -/

/-- FL4, FL5, FL7, FL16, and FL6: which operands a command reads. -/
theorem test_unwritten_operands :
    faultOf (exec .add State.reset) = some .unwrittenRead ∧
    faultOf (exec .add { ab 5 0 with bHi := none }) = some .unwrittenRead ∧
    faultOf (exec .inc { ab 5 0 with aHi := none }) = some .unwrittenRead ∧
    faultOf (exec .decbe (bytesFrom (codecBytes.take 15))) = some .unwrittenRead ∧
    got (exec .not { ab 5 0 with bHi := none, bLo := none }) State.status = some 0x02 := by decide

/-- FL1, FL2, FL3. -/
theorem test_hrd_after_reset :
    got (exec (.hrd 0x08) State.reset) State.replies = some [0x00] ∧
    faultOf (exec (.hrd 0x04) State.reset) = some .unwrittenRead ∧
    got (exec (.hrd 0x09) State.reset) State.replies = some [0x00] := by decide

/-- FL17 to FL19: reads while the command is in flight. -/
theorem test_hrd_while_busy :
    got (exec (.hrd 0x08) (busyAB 5 0)) State.replies = some [0x01] ∧
    got (exec (.hrd 0x00) (busyAB 5 0)) State.replies = some [0x05] ∧
    faultOf (exec (.hrd 0x04) (busyAB 5 0)) = some .hostProtocol ∧
    faultOf (exec (.hrd 0x10) (busyAB 5 0)) = some .hostProtocol := by decide

/-- R86, R52: a read of an UNWRITTEN half of B while the command is in flight. -/
theorem test_hrd_unwritten_while_busy :
    faultOf (exec (.hrd 0x03) { busyAB 5 0 with bHi := none }) = some .unwrittenRead := by decide

/-- FL20 to FL26: writes that are no writes. -/
theorem test_hwr_faults :
    faultOf (exec (.hwr 0x02 1) (busyAB 5 0)) = some .hostProtocol ∧
    faultOf (exec (.hwr 0x09 0x21) (busyAB 5 0)) = some .hostProtocol ∧
    faultOf (exec (.hwr 0x08 0) State.reset) = some .hostProtocol ∧
    faultOf (exec (.hwr 0x04 0) State.reset) = some .hostProtocol ∧
    faultOf (exec (.hwr 0x0A 0) State.reset) = some .hostProtocol ∧
    faultOf (exec (.hwr 0x10 0x100) State.reset) = some .hostProtocol ∧
    faultOf (exec (.hwr 0x09 0x120) State.reset) = some .hostProtocol := by decide

/-- Program P1, step 5: a CMD write starts ADD; program P4's kind of BUF write stores one byte. -/
theorem test_hwr_effects :
    got (exec (.hwr 0x09 0x20) (ab 5 0)) (fun t => (t.pending, t.status)) = some (some 0x20, 0x01) ∧
    got (exec (.hwr 0x1F 0xAB) State.reset) (fun t => t.buf) = some [(15, 0xAB)] ∧
    got (exec (.hwr 0x01 7) State.reset) (fun t => (t.aHi, t.aLo)) = some (some 7, none) := by decide

/-- FL8 to FL11: a reserved opcode completes with ILLOP and reads nothing. -/
theorem test_step_illop :
    got (step { State.reset with pending := some 0x00, status := 0x01 }) State.status = some 0x0C ∧
    got (step { State.reset with pending := some 0x17, status := 0x01 }) State.status = some 0x0C := by decide

/-- FL12, FL14, FL15: after a failed DIVMOD R2 is UNWRITTEN and A is as before. -/
theorem test_step_divz :
    got (step { ab 5 0 with pending := some 0x60, status := 0x01 })
      (fun t => (t.status, t.resultR2, t.operandA, t.pending)) = some (0x04, none, some 5, none) := by decide

/-- FL27: a malformed header faults where the host presents it. -/
theorem test_step_badHeader :
    faultOf (step { State.reset with host := [.transaction 0xA0 0] }) = some .hostProtocol := by decide

/-- FL28: reset while a command is in flight abandons it; FL29: a recorded fault stays. -/
theorem test_step_reset :
    got (step { busyAB 5 0 with wait := 1, host := [.reset] })
      (fun t => (t.status, t.pending, t.operandA)) = some (0x00, none, none) ∧
    (runLatched 2 { State.reset with host := [.transaction 0x8A 0, .reset] }).fault = some .hostProtocol := by
  decide

/-- Programs P1 and P2, `poll`: it repeats while BUSY = 1 and ends when BUSY = 0. -/
theorem test_step_poll :
    got (step { busyAB 5 0 with wait := 1, host := [.poll] }) (fun t => (t.replies, t.host, t.wait)) =
      some ([0x01], [.poll], 0) ∧
    got (step { ab 5 0 with status := 0x02, host := [.poll] }) (fun t => (t.replies, t.host)) =
      some ([0x02], []) := by decide

/-- A table word placed after reset is what the very next step runs: NOT of the boot duty's 0 is MAX. -/
theorem test_withFetchWord :
    rOf (step (State.reset.withFetchWord 8 0x43)) = some wideMax ∧
    got (step (State.reset.withFetchWord 8 0x08)) State.replies = some [0x00] ∧
    got (step (State.reset.withFetchWord 72 0x0C82)) (fun t => t.bLo) = some (some 0x0C) := by decide

/-- 30_encoding.md R88: `lda` writes the low half first, then the high half; `run` is the command and the poll. -/
theorem test_asm :
    asmLda (w2 1 0) = [.transaction 0x80 0, .transaction 0x81 1] ∧
    asmRun .add = [.transaction 0x89 0x20, .poll] ∧
    asmStr2 = [.transaction 0x06 0, .transaction 0x07 0] := by decide

/-! ### Text procedures: V9 -/

/-- SYM62 and SYM63 as '+' and '/'; any two codes that are no letter and no digit would do. -/
def params : HostParams := { sym62 := 0x2B, sym63 := 0x2F }

/-- T1, T3, T4, T17. -/
theorem test_format :
    formatWide params 255 16 = some [0x46, 0x46] ∧ formatWide params 255 10 = some [0x32, 0x35, 0x35] ∧
    formatWide params 0 2 = some [0x30] ∧ formatWide params 255 1 = none := by decide

/-- T12, T13, T14. -/
theorem test_format_symbols :
    formatWide params 61 62 = some [0x7A] ∧ formatWide params 62 64 = some [0x2B] ∧
    formatWide params 63 64 = some [0x2F] := by decide

/-- T19, T21, T22, T23. -/
theorem test_parse :
    parseText params [0x66, 0x66] 16 = some (255, 2) ∧ parseText params [0x67] 16 = none ∧
    parseText params [] 10 = none ∧ parseText params [0x31, 0x32, 0x7A] 10 = some (12, 2) := by decide

/-- T27, T28, T29, T31. -/
theorem test_parse_case :
    parseText params [0x7A] 37 = none ∧ parseText params [0x5A] 37 = some (35, 1) ∧
    parseText params [0x61] 37 = some (36, 1) ∧
    parseText params [0x30, 0x78, 0x31, 0x32] 34 = some (38184, 4) := by decide

/-! ### Witnesses: a state and operands that meet the hypotheses of each statement, clause by clause -/

/-- A value read from the next state shows that there is one. -/
theorem next_of_got {α : Type} {o : Result} {f : State → α} {x : α} (h : got o f = some x) :
    ∃ t, o = .next t ∧ f t = x := by
  cases o with
  | next t => exact ⟨t, rfl, Option.some.inj h⟩
  | fault r => cases h
  | refused r => cases h

theorem witness_DecodeOfEncodeIsIdentity :
    decode (.command 0x83) = .instr .decle ∧ decode (.transaction 0x9F wideMaxWord) = .instr (.hwr 0x1F wideMaxWord) ∧
    decode (.transaction 0x1F 5) = .instr (.hrd 0x1F) := by decide

theorem witness_HeaderSelectsTransaction :
    ((0x9F : Byte).extractLsb' 5 2 = 0 ∧ (0x9F : Byte).getLsbD 7 = true) ∧
    ((0x1F : Byte).extractLsb' 5 2 = 0 ∧ (0x1F : Byte).getLsbD 7 = false) ∧
    ((0x20 : Byte).extractLsb' 5 2 ≠ 0 ∧ badHeader.fault = none ∧ badHeader.pending = none ∧
      badHeader.host = [.transaction 0x20 0]) ∧
    ((0x20 : Byte).extractLsb' 5 2 ≠ 0 ∧ busyBadHeader.fault = none ∧ 0 < busyBadHeader.wait ∧
      busyBadHeader.host = [.transaction 0x20 0]) ∧
    ((ab 5 0).busy = false ∧ (ab 5 0).readReg .aLo = some 5) := by decide

theorem witness_StepRunsDecodedInstruction :
    ((busyAB 5 0).fault = none ∧ (busyAB 5 0).pending = some 0x20 ∧ (busyAB 5 0).wait = 0 ∧
      decodeCommand 0x20 = .instr .add) ∧
    (illegal.fault = none ∧ illegal.pending = some 0x17 ∧ illegal.wait = 0 ∧
      decodeCommand 0x17 = .reject .reservedOpcode) ∧
    (hostWrites.fault = none ∧ hostWrites.pending = none ∧ hostWrites.host = [.transaction 0x80 5] ∧
      decodeTransaction 0x80 5 = .instr (.hwr 0x00 5)) ∧
    (busyReads.fault = none ∧ busyReads.pending = some 0x20 ∧ busyReads.wait = 0 + 1 ∧
      busyReads.host = [.transaction 0x08 0] ∧ decodeTransaction 0x08 0 = .instr (.hrd 0x08)) := by decide

theorem witness_ReservedOpcodeCompletesWithIllop :
    (decodeCommand 0x17 = .reject .reservedOpcode ∧ illegal.fault = none ∧ illegal.pending = some 0x17 ∧
      illegal.wait = 0) ∧ State.reset.busy = false := by decide

theorem witness_CmpWritesThreeWayResult :
    ((ab 1 2).operandA = some 1 ∧ (ab 1 2).operandB = some 2 ∧ lexLess 1 2) ∧
    ((ab 2 2).operandA = some 2 ∧ (ab 2 2).operandB = some 2) ∧
    ((ab (w2 1 0) 2).operandA = some (w2 1 0) ∧ (ab (w2 1 0) 2).operandB = some 2 ∧
      ¬ lexLess (w2 1 0) 2) := by decide

theorem witness_PredicatesWriteOneOrZero :
    ((ab 1 2).operandA = some 1 ∧ (ab 1 2).operandB = some 2 ∧ lexLess 1 2) ∧
    ((ab 2 2).operandA = some 2 ∧ (ab 2 2).operandB = some 2 ∧ ¬ lexLess 2 2) := by decide

theorem witness_CompareIsUnsignedNumericOrder :
    compareWide 1 (w2 1 0) = .lt ∧ compareWide (w2 1 0) (w2 1 1) = .lt := by decide

theorem witness_AddSubWrapModulo :
    (ab wideMax 1).operandA = some wideMax ∧ (ab wideMax 1).operandB = some 1 := by decide

theorem witness_IncDecNegValues :
    (ab 0 0).operandA = some 0 ∧ (ab wideMax 0).operandA = some wideMax := by decide

theorem witness_NegBorrowsWhenLowWordNonzero :
    ((ab (w2 3 5) 0).operandA = some (w2 3 5) ∧ loWord (w2 3 5) ≠ 0) ∧
    ((ab (w2 3 0) 0).operandA = some (w2 3 0) ∧ loWord (w2 3 0) = 0) := by decide

theorem witness_MulKeepsLowHalf :
    (ab wideMax wideMax).operandA = some wideMax ∧ (ab wideMax wideMax).operandB = some wideMax := by decide

theorem witness_BitwiseWordByWord :
    (ab va vb).operandA = some va ∧ (ab va vb).operandB = some vb := by decide

theorem witness_ShiftsByWholeOperandB :
    ((ab va 127).operandA = some va ∧ (ab va 127).operandB = some 127) ∧
    ((ab va wideMax).operandA = some va ∧ (ab va wideMax).operandB = some wideMax) := by decide

theorem witness_ShiftAmountsFrom128GiveZero :
    ((ab va 127).operandA = some va ∧ (ab va 127).operandB = some 127) ∧
    ((ab va 128).operandA = some va ∧ (ab va 128).operandB = some 128 ∧ 128 ≤ (128 : Wide).toNat) ∧
    ((ab va (w2 1 4)).operandA = some va ∧ (ab va (w2 1 4)).operandB = some (w2 1 4) ∧
      hiWord (w2 1 4) ≠ 0) := by decide

theorem witness_ShifterLaws :
    120 ≤ 128 - bitlen 255 ∧ 127 ≤ lowidx (w2 0x8000000000000000 0) - 1 := by decide

theorem witness_MsbidxWritesBitLength :
    (ab 0 0).operandA = some 0 ∧ (ab wideMax 0).operandA = some wideMax := by decide

theorem witness_LsbidxWritesLowestSetIndex :
    (ab 0 0).operandA = some 0 ∧
    ((ab (w2 0x8000000000000000 0) 0).operandA = some (w2 0x8000000000000000 0) ∧
      w2 0x8000000000000000 0 ≠ 0) := by decide

theorem witness_PopcntWritesNumberOfSetBits : (ab wideMax 0).operandA = some wideMax := by decide

theorem witness_DivmodWritesQuotientAndRemainder :
    ((ab 5 0).operandA = some 5 ∧ (ab 5 0).operandB = some 0) ∧
    ((ab wideMax 1).operandA = some wideMax ∧ (ab wideMax 1).operandB = some 1 ∧ (1 : Wide) ≠ 0) := by decide

theorem witness_DivisionLoopIsExactDivision :
    ((1 : Wide) ≠ 0 ∧ bitlen wideMax = 128 ∧ 1 ≤ wideMax) ∧ (vb ≠ 0 ∧ va < vb) ∧ (va ≠ 0 ∧ va ≤ va) := by decide

theorem witness_RdivDividesByValidRadix :
    ((ab 5 2).operandA = some 5 ∧ (ab 5 2).operandB = some 2 ∧ 2 ≤ (2 : Wide).toNat ∧ (2 : Wide).toNat ≤ 64) ∧
    ((ab 5 64).operandB = some 64 ∧ 2 ≤ (64 : Wide).toNat ∧ (64 : Wide).toNat ≤ 64) ∧
    ((ab 5 1).operandB = some 1 ∧ ¬ (2 ≤ (1 : Wide).toNat ∧ (1 : Wide).toNat ≤ 64)) ∧
    ((ab 5 65).operandB = some 65 ∧ ¬ (2 ≤ (65 : Wide).toNat ∧ (65 : Wide).toNat ≤ 64)) := by decide

theorem witness_EncodeStoresSixteenBytes : (ab va 0).operandA = some va := by decide

theorem witness_DecodeSumsSixteenBytes :
    (∀ i, i < 16 → (bytesFrom codecBytes).buf.read i = some (codecBytes.getD i 0)) ∧
    (15 < 16 ∧ (bytesFrom (codecBytes.take 15)).buf.read 15 = none) ∧
    (0 < 16 ∧ State.reset.buf.read 0 = none) := by decide

theorem witness_ByteRoundTrips :
    (ab va 0).operandA = some va ∧ (bytesFrom codecBytes).written .buf = true := by decide

theorem witness_CommandFaultsExactlyOnUnwrittenOperand :
    (Instr.add.isCommand = true ∧ ∃ p ∈ readsOf .add, (State.written { ab 5 0 with bHi := none }) p = false) ∧
    (Instr.decbe.isCommand = true ∧ ∃ p ∈ readsOf .decbe, (bytesFrom (codecBytes.take 15)).written p = false) ∧
    (∀ p ∈ readsOf .add, (ab 5 0).written p = true) ∧
    (∀ p ∈ readsOf .decbe, (bytesFrom codecBytes).written p = true) := by decide

theorem witness_SuccessfulCommandFrame :
    (∃ t, exec .add (ab 5 7) = .next t ∧ t.status = 0x02) ∧
    (∃ t, exec .divmod (ab 5 7) = .next t ∧ t.status = 0x02) ∧
    (∃ t, exec .encbe (ab 5 7) = .next t ∧ t.status = 0x02) ∧
    (∃ t, exec .decle (bytesFrom codecBytes) = .next t ∧ t.status = 0x02) ∧
    (∃ t, exec .divmod (ab 5 0) = .next t ∧ t.status = 0x04) :=
  ⟨next_of_got (by decide), next_of_got (by decide), next_of_got (by decide), next_of_got (by decide),
    next_of_got (by decide)⟩

theorem witness_OnlyEncodeStoresToBuf :
    (∃ t, exec .add (ab 5 7) = .next t ∧ t.status = 0x02) ∧
    (∃ t, exec .encle (ab 5 7) = .next t ∧ t.status = 0x02) :=
  ⟨next_of_got (by decide), next_of_got (by decide)⟩

theorem witness_OnlyDivmodRdivAndReservedFail :
    (∃ t, exec .divmod (ab 5 0) = .next t ∧ t.status = 0x04) ∧
    (∃ t, exec .rdiv (ab 5 65) = .next t ∧ t.status = 0x08) ∧
    (∃ t, exec .rdiv (ab 5 64) = .next t ∧ t.status = 0x02) ∧
    (decodeCommand 0x17 = .reject .reservedOpcode ∧ illegal.fault = none ∧ illegal.pending = some 0x17 ∧
      illegal.wait = 0) :=
  ⟨next_of_got (by decide), next_of_got (by decide), next_of_got (by decide), by decide⟩

theorem witness_FailureLeavesResultsUnwritten :
    (∃ t, exec .divmod (ab 5 0) = .next t ∧ t.status = 0x04) ∧
    (∃ t, exec .rdiv (ab 5 0) = .next t ∧ t.status = 0x08) ∧
    (decodeCommand 0x17 = .reject .reservedOpcode ∧ illegal.fault = none ∧ illegal.pending = some 0x17 ∧
      illegal.wait = 0) ∧
    (∃ t, exec .divmod (ab 5 7) = .next t ∧ t.status = 0x02) :=
  ⟨next_of_got (by decide), next_of_got (by decide), by decide, next_of_got (by decide)⟩

theorem witness_WhoWritesR :
    (∃ t, exec .add (ab 5 7) = .next t ∧ t.status = 0x02) ∧
    (∃ t, exec .encbe (ab 5 7) = .next t ∧ t.status = 0x02) ∧
    (∃ t, exec .rdiv (ab 5 0) = .next t ∧ t.status = 0x08) ∧
    (decodeCommand 0x17 = .reject .reservedOpcode ∧ illegal.fault = none ∧ illegal.pending = some 0x17 ∧
      illegal.wait = 0) :=
  ⟨next_of_got (by decide), next_of_got (by decide), next_of_got (by decide), by decide⟩

theorem witness_WhoWritesR2 :
    (∃ t, exec .add (ab 5 7) = .next t ∧ t.status = 0x02) ∧
    (∃ t, exec .divmod (ab 5 7) = .next t ∧ t.status = 0x02) ∧
    (∃ t, exec .divmod (ab 5 0) = .next t ∧ t.status = 0x04) ∧
    (decodeCommand 0x17 = .reject .reservedOpcode ∧ illegal.fault = none ∧ illegal.pending = some 0x17 ∧
      illegal.wait = 0) :=
  ⟨next_of_got (by decide), next_of_got (by decide), next_of_got (by decide), by decide⟩

/-- Two states that agree on A and B only. -/
theorem witness_OutputsDependOnOperandsAlone :
    (∀ p ∈ readsOf .divmod,
      samePlace (ab 5 7) { ab 5 7 with rLo := some 9, status := 0x0C, buf := [(3, 4)] } p) ∧
    (∃ t, exec .divmod (ab 5 7) = .next t ∧ t.status = 0x02) ∧
    (∃ t, exec .rdiv (ab 5 0) = .next t ∧ t.status = 0x08) ∧
    (∃ t, exec .encbe (ab 5 7) = .next t ∧ t.status = 0x02) := by
  refine ⟨?_, next_of_got (by decide), next_of_got (by decide), next_of_got (by decide)⟩
  intro p hp
  rcases List.mem_cons.1 hp with rfl | hp
  · exact ⟨rfl, rfl⟩
  · rcases List.mem_singleton.1 hp with rfl
    exact ⟨rfl, rfl⟩

/-- A completion, a reset and a write of A: one step of each kind. -/
theorem witness_OperandsChangeOnlyByHostOrReset :
    (∃ t, step (busyAB 5 0) = .next t ∧ t.status = 0x02) ∧
    (∃ t, step { ab 5 0 with host := [.reset] } = .next t ∧ t.operandA = none) ∧
    (∃ t, step hostWrites = .next t ∧ t.aLo = some 5) :=
  ⟨next_of_got (by decide), next_of_got (by decide), next_of_got (by decide)⟩

theorem witness_CmdWriteStartsCommand :
    (ab 5 0).busy = false ∧
    ((busyAB 5 0).fault = none ∧ (busyAB 5 0).pending = some 0x20 ∧ (busyAB 5 0).wait = 0 ∧
      decodeCommand 0x20 = .instr .add) ∧ (busyAB 5 0).busy = true := by decide

theorem witness_HwrStoresOrFaults :
    (Instr.hwr 0x0A 0).wellFormed = false ∧ (busyAB 5 0).busy = true ∧
    ((Instr.hwr 0x09 0xFF).wellFormed = true ∧ (ab 5 0).busy = false ∧ regOfIndex 0x09 = some .cmd) ∧
    ((Instr.hwr 0x1F 0xFF).wellFormed = true ∧ regOfIndex 0x1F = some (.buf 15)) := by decide

theorem witness_HrdReturnsValueOrFaults :
    (Instr.hrd 0x0F).wellFormed = false ∧
    ((Instr.hrd 0x00).wellFormed = true ∧ (ab 5 0).busy = false ∧ (ab 5 0).readReg .aLo = some 5) ∧
    ((Instr.hrd 0x1F).wellFormed = true ∧ (ab 5 0).readReg (.buf 15) = none) ∧
    ((busyAB 5 0).busy = true ∧ (4 ≤ (4 : BitVec 5).toNat ∧ (7 : BitVec 5).toNat ≤ 7) ∧
      0x10 ≤ (0x10 : BitVec 5).toNat) ∧
    ((Instr.hrd 0x03).wellFormed = true ∧ (3 : BitVec 5).toNat ≤ 3 ∧ (busyAB 5 0).readReg .bHi = some 0) ∧
    (illegal.busy = true ∧ illegal.readReg .bHi = none) := by decide

theorem witness_RegisterIndexMap :
    (0x0A ≤ (0x0A : BitVec 5).toNat ∧ (0x0A : BitVec 5).toNat ≤ 0x0F) ∧
    (0x0A ≤ (0x0F : BitVec 5).toNat ∧ (0x0F : BitVec 5).toNat ≤ 0x0F) ∧
    0x10 ≤ (0x10 : BitVec 5).toNat ∧ 0x10 ≤ (0x1F : BitVec 5).toNat := by decide

theorem witness_BusyRestrictions :
    (busyAB 5 0).busy = true ∧ (4 ≤ (4 : BitVec 5).toNat ∧ (4 : BitVec 5).toNat ≤ 7) ∧
    (4 ≤ (7 : BitVec 5).toNat ∧ (7 : BitVec 5).toNat ≤ 7) ∧ 0x10 ≤ (0x10 : BitVec 5).toNat ∧
    (busyAB 5 0).aLo = some 5 ∧ (busyAB 5 0).aHi = some 0 ∧ (busyAB 5 0).bLo = some 0 ∧
    (busyAB 5 0).bHi = some 0 := by decide

theorem witness_NarrowRegistersUseLowByte :
    256 ≤ (256 : Word).toNat ∧ 0x10 ≤ (0x10 : BitVec 5).toNat ∧
    (∃ t, exec (.hrd 0x08) (ab 5 0) = .next t ∧ t.replies = [0]) ∧
    (∃ t, exec (.hrd 0x09) (ab 5 0) = .next t ∧ t.replies = [0]) ∧
    (∃ t, exec (.hrd 0x10) (bytesFrom codecBytes) = .next t ∧ t.replies = [1]) :=
  ⟨by decide, by decide, next_of_got (by decide), next_of_got (by decide), next_of_got (by decide)⟩

theorem witness_OnlyCmdWriteHasSideEffect :
    (∃ t, exec (.hwr 0x09 0x20) (ab 5 0) = .next t ∧ t.status = 0x01) ∧
    (∃ t, exec (.hwr 0x1F 0xFF) (ab 5 0) = .next t ∧ t.status = 0x00) ∧
    (∃ t, exec (.hrd 0x00) (ab 5 0) = .next t ∧ t.replies = [5]) :=
  ⟨next_of_got (by decide), next_of_got (by decide), next_of_got (by decide)⟩

theorem witness_BufAndRegistersAreApart :
    (0x10 ≤ (0x10 : BitVec 5).toNat ∧
      ∃ t, exec (.hwr 0x10 0xFF) (bytesFrom codecBytes) = .next t ∧ t.status = 0x00) ∧
    (∃ t, exec (.hwr 0x00 7) (bytesFrom codecBytes) = .next t ∧ t.aLo = some 7) :=
  ⟨⟨by decide, next_of_got (by decide)⟩, next_of_got (by decide)⟩

theorem witness_PlacedWordRunsNext :
    (State.reset.fault = none ∧ decodeCommand 0x60 = .instr .divmod) ∧
    (State.reset.fault = none ∧ decodeTransaction 0x82 0x0C = .instr (.hwr 0x02 0x0C)) ∧
    ((busyAB 5 0).fault = none ∧ decodeTransaction 0x08 0 = .instr (.hrd 0x08)) := by decide

theorem witness_ResetAbandonsCommandInFlight :
    (State.fault { ab 5 0 with host := [.reset] } = none ∧ State.pending { ab 5 0 with host := [.reset] } = none) ∧
    (State.fault { busyAB 5 0 with wait := 1, host := [.reset] } = none ∧
      0 < State.wait { busyAB 5 0 with wait := 1, host := [.reset] }) := by decide

theorem witness_ModelFaultIsPermanent :
    State.fault { State.reset with fault := some .hostProtocol } = some .hostProtocol ∧
    (badHeader.fault = none ∧ step badHeader = .fault .hostProtocol) :=
  ⟨rfl, rfl, rfl⟩

/-- A host write, a completion and a read, from states that meet the invariant. -/
theorem witness_StepKeepsInvariant :
    (StateInv hostWrites ∧ ∃ t, step hostWrites = .next t ∧ t.aLo = some 5) ∧
    (StateInv (busyAB 5 0) ∧ ∃ t, step (busyAB 5 0) = .next t ∧ t.status = 0x02) ∧
    (StateInv busyReads ∧ ∃ t, step busyReads = .next t ∧ t.replies = [1]) :=
  ⟨⟨by unfold StateInv; decide, next_of_got (by decide)⟩,
    ⟨by unfold StateInv; decide, next_of_got (by decide)⟩,
    ⟨by unfold StateInv; decide, next_of_got (by decide)⟩⟩

theorem witness_CompletionClearsBusy :
    (Instr.add.isCommand = true ∧ ∃ t, exec .add (ab 5 7) = .next t ∧ t.status = 0x02) ∧
    (Instr.rdiv.isCommand = true ∧ ∃ t, exec .rdiv (ab 5 0) = .next t ∧ t.status = 0x08) :=
  ⟨⟨rfl, next_of_got (by decide)⟩, ⟨rfl, next_of_got (by decide)⟩⟩

theorem witness_StartedCommandCompletes :
    State.fault { busyAB 5 0 with wait := 3 } = none ∧ State.pending { busyAB 5 0 with wait := 3 } = some 0x20 ∧
    State.host { busyAB 5 0 with wait := 3 } = [] := by decide

theorem witness_PollLoopEnds :
    (polling.fault = none ∧ polling.pending = some 0x20 ∧ polling.status = 0x01 ∧
      polling.host = [.poll, .transaction 0x04 0]) ∧
    ∃ u, step { polling with wait := 0 } = .next u ∧ u.status = 0x02 :=
  ⟨by decide, next_of_got (by decide)⟩

theorem witness_TextFailureResults :
    ((1 : Nat) < 2 ∧ 64 < (65 : Nat)) ∧ 16 ≤ digitValue params 0x67 16 ∧
    parseText params [0x31, 0x32, 0x7A] 10 = some (12, 2) ∧
    parseText params [0x31, 0x32] 10 = some (12, 2) ∧ parseText params [] 10 = none := by decide

theorem witness_ParseReadsLongestDigitPrefix :
    parseText params [0x31, 0x32, 0x7A] 10 = some (12, 2) ∧
    ([0x31, 0x32, 0x7A] : List Byte)[2]? = some 0x7A := by decide

theorem witness_DigitCountBound : (2 ≤ 2 ∧ 2 ≤ 64) ∧ (2 ≤ 64 ∧ 64 ≤ 64) := by decide

theorem witness_DigitAlphabet :
    paramsOk params = true ∧ (9 < 10 ∧ 25 < 26 ∧ 36 ≤ 36 ∧ 36 < 37) ∧
    ((0x40 : Byte) ∉ textSymbols ∧ (0x40 : Byte) ≠ params.sym62 ∧ (0x40 : Byte) ≠ params.sym63) := by decide

theorem witness_TextRoundTrip : paramsOk params = true ∧ (2 ≤ 2 ∧ 2 ≤ 64) ∧ (2 ≤ 64 ∧ 64 ≤ 64) := by decide

end Sys2Proof.Tests
end

section
/-! PROOFS. Everything a step can do, said once: what `exec` answers, what `fetch` finds, what a step has done. The
proofs about the state (10_state.md) split on `exec_next` and `step_cases` and unfold neither. -/

namespace Sys2Proof.Machine

/-! ### What decodes to what -/

/-- A value of the opcode map is a command (30_encoding.md R82). -/
theorem isCommand_of_decodeCommand {c : Byte} {i : Instr} (h : decodeCommand c = .instr i) :
    i.isCommand = true := by
  have all : ∀ e ∈ opcodeMap, e.2.isCommand = true := by decide
  unfold decodeCommand at h
  split at h
  · next j hj =>
    cases h
    obtain ⟨l₁, l₂, hl, _⟩ := List.lookup_eq_some_iff.mp hj
    exact all (c, i) (by simp [hl])
  · cases h

/-- A header with W = 1 and H[6:5] = 00 is the write header of its index (30_encoding.md R83). -/
theorem eq_writeHeader {h : Byte} (h65 : h.extractLsb' 5 2 = 0) (h7 : h.getLsbD 7 = true) :
    h = writeHeader (h.extractLsb' 0 5) :=
  (by decide : ∀ h : Byte, h.extractLsb' 5 2 = 0 → h.getLsbD 7 = true → h = writeHeader (h.extractLsb' 0 5))
    h h65 h7

/-- A transaction that decodes to a write has the write header of the write's index. -/
theorem eq_writeHeader_of_decode {h : Byte} {d d' : Word} {n : BitVec 5}
    (hd : decodeTransaction h d = .instr (.hwr n d')) : h = writeHeader n := by
  unfold decodeTransaction at hd
  split at hd
  · cases hd
  · next h65 =>
    split at hd
    · next h7 =>
      cases hd
      exact eq_writeHeader (not_not.mp h65) h7
    · cases hd

/-- A register found at an index has that index (20_memory.md R51). -/
theorem index_of_regOfIndex {n : BitVec 5} {r : Reg} (h : regOfIndex n = some r) : r.index = n :=
  (by decide : ∀ n : BitVec 5, ∀ r ∈ regOfIndex n, r.index = n) n r h

/-- A host write of a read-only register is a protocol violation, whatever its data (20_memory.md R51). -/
theorem execHwr_of_readOnly {n : BitVec 5} {r : Reg} (hr : regOfIndex n = some r) (hw : r.writable = false)
    (d : Word) (s : State) : execHwr n d s = .fault .hostProtocol := by
  simp [execHwr, hr, hw]

/-! ### The outcome of a command -/

/-- The outcomes a command can have, by its "writes on success" column (30_encoding.md R82): a value for R, a
division's two values, the 16 bytes of an encoding, or a failure. -/
inductive OutcomeOf (i : Instr) : CommandOutcome → Prop
  | value (v : Wide) (h : writesOf i = [.r]) : OutcomeOf i (okR v)
  | division (a b : Wide) (h : writesOf i = [.r, .r2]) : OutcomeOf i (divOutcome a b)
  | encoding (f : Nat → Byte) (h : writesOf i = [.buf]) : OutcomeOf i (.ok { bytes := bytesOf f })
  | failure (c : FailCode) : OutcomeOf i (.fail c)

/-- Two states that agree on A have one operand A. -/
theorem State.operandA_congr {s s' : State} (h : samePlace s s' .a) : s'.operandA = s.operandA := by
  obtain ⟨hHi, hLo⟩ := h
  simp only [State.operandA, hHi, hLo]

/-- Two states that agree on B have one operand B. -/
theorem State.operandB_congr {s s' : State} (h : samePlace s s' .b) : s'.operandB = s.operandB := by
  obtain ⟨hHi, hLo⟩ := h
  simp only [State.operandB, hHi, hLo]

/-- Two buffers that read alike give the same runs of bytes. -/
theorem Memory.readRun_congr {m m' : Memory} (h : ∀ j, Memory.read m' j = Memory.read m j) (i n : Nat) :
    Memory.readRun m' i n = Memory.readRun m i n := by
  induction n generalizing i with
  | zero => rfl
  | succ n ih => simp only [Memory.readRun, h, ih]

/-- Two states that agree on BUF have one operand BUF. -/
theorem State.operandBuf_congr {s s' : State} (h : samePlace s s' .buf) : s'.operandBuf = s.operandBuf :=
  Memory.readRun_congr h 0 Config.bufBytes

/-- A command that reads A alone completes with one outcome in every state with that A. -/
theorem onA_outcome {s t : State} {f : Wide → CommandOutcome} (h : onA s f = .next t) :
    ∃ a, t = s.complete (f a) ∧
      ∀ s', (∀ p ∈ [Place.a], samePlace s s' p) → onA s' f = .next (s'.complete (f a)) := by
  obtain ⟨a, ha, rfl⟩ := onA_next h
  refine ⟨a, rfl, fun s' hs => onA_of_some ?_ f⟩
  rw [State.operandA_congr (hs .a (by decide)), ha]

/-- A command that reads A and B completes with one outcome in every state with those A and B. -/
theorem onAB_outcome {s t : State} {f : Wide → Wide → CommandOutcome} (h : onAB s f = .next t) :
    ∃ a b, t = s.complete (f a b) ∧
      ∀ s', (∀ p ∈ [Place.a, .b], samePlace s s' p) → onAB s' f = .next (s'.complete (f a b)) := by
  obtain ⟨a, b, ha, hb, rfl⟩ := onAB_next h
  refine ⟨a, b, rfl, fun s' hs => onAB_of_some ?_ ?_ f⟩
  · rw [State.operandA_congr (hs .a (by decide)), ha]
  · rw [State.operandB_congr (hs .b (by decide)), hb]

/-- A command that reads BUF completes with one outcome in every state with that BUF. -/
theorem onBuf_outcome {s t : State} {f : List Byte → CommandOutcome} (h : onBuf s f = .next t) :
    ∃ bs, t = s.complete (f bs) ∧
      ∀ s', (∀ p ∈ [Place.buf], samePlace s s' p) → onBuf s' f = .next (s'.complete (f bs)) := by
  obtain ⟨bs, hb, rfl⟩ := onBuf_next h
  refine ⟨bs, rfl, fun s' hs => onBuf_of_some ?_ f⟩
  rw [State.operandBuf_congr (hs .buf (by decide)), hb]

/-- A command that answers a next state completes, with an outcome of its column that every state with the same
operands gives too (10_state.md R34). -/
theorem exec_command_outcome {i : Instr} {s t : State} (hi : i.isCommand = true) (h : exec i s = .next t) :
    ∃ o, OutcomeOf i o ∧ t = s.complete o ∧
      ∀ s', (∀ p ∈ readsOf i, samePlace s s' p) → exec i s' = .next (s'.complete o) := by
  cases i with
  | hwr => cases hi
  | hrd => cases hi
  | divmod =>
    obtain ⟨a, b, ht, hs⟩ := onAB_outcome h
    refine ⟨_, ?_, ht, hs⟩
    split
    · exact .failure _
    · exact .division a b rfl
  | rdiv =>
    obtain ⟨a, b, ht, hs⟩ := onAB_outcome h
    refine ⟨_, ?_, ht, hs⟩
    split
    · exact .division a b rfl
    · exact .failure _
  | encbe | encle =>
    obtain ⟨a, ht, hs⟩ := onA_outcome h
    exact ⟨_, .encoding _ rfl, ht, hs⟩
  | decbe | decle =>
    obtain ⟨bs, ht, hs⟩ := onBuf_outcome h
    exact ⟨_, .value _ rfl, ht, hs⟩
  | inc | dec | neg | not | msbidx | lsbidx | popcnt =>
    obtain ⟨a, ht, hs⟩ := onA_outcome h
    exact ⟨_, .value _ rfl, ht, hs⟩
  | _ =>
    obtain ⟨a, b, ht, hs⟩ := onAB_outcome h
    exact ⟨_, .value _ rfl, ht, hs⟩

/-! ### Instructions and steps -/

/-- What an instruction that answers a next state has done: a command its completion, a host write its store or
command start, a host read its reply. -/
theorem exec_next {i : Instr} {s t : State} (h : exec i s = .next t) :
    (i.isCommand = true ∧ ∃ o, OutcomeOf i o ∧ t = s.complete o) ∨
    (∃ n d r, i = .hwr n d ∧ regOfIndex n = some r ∧ s.busy = false ∧ t = s.writeReg r d) ∨
    (∃ n v, i = .hrd n ∧ t = s.reply v) := by
  cases hi : i.isCommand with
  | true =>
    obtain ⟨o, ho, ht, _⟩ := exec_command_outcome hi h
    exact .inl ⟨rfl, o, ho, ht⟩
  | false =>
    cases i with
    | hwr n d =>
      obtain ⟨r, hr, _, hb, _, ht⟩ := execHwr_next h
      exact .inr (.inl ⟨n, d, r, rfl, hr, hb, ht⟩)
    | hrd n =>
      obtain ⟨r, v, _, _, _, ht⟩ := execHrd_next h
      exact .inr (.inr ⟨n, v, rfl, ht⟩)
    | _ => cases hi

/-- What the host's next event runs: a read of STATUS for `poll`, or its transaction, in the state as it is but for the
queue. -/
theorem fetchHost_run {s u : State} {i : Instr} (h : fetchHost s = .run i u) :
    ∃ l, u = { s with host := l } ∧
      (i = .hrd statusIndex ∨
        ∃ hd d rest, s.host = .transaction hd d :: rest ∧ decodeTransaction hd d = .instr i) := by
  rcases fetchHost_cases s with ⟨_, e⟩ | ⟨_, _, e⟩ | ⟨rest, _, e⟩ | ⟨hd, d, rest, j, hh, hj, e⟩ |
    ⟨_, _, _, _, _, _, e⟩ <;> rw [e] at h <;> cases h
  · refine ⟨if s.busy then s.host else rest, ?_, .inl rfl⟩
    split <;> rfl
  · exact ⟨rest, rfl, .inr ⟨hd, d, rest, hh, hj⟩⟩

/-- What the host's next event does without an instruction: nothing, or a reset. -/
theorem fetchHost_go {s t : State} (h : fetchHost s = .go t) :
    t = s ∨ ∃ rest, s.host = .reset :: rest ∧ t = State.resetEvent { s with host := rest } := by
  rcases fetchHost_cases s with ⟨_, e⟩ | ⟨rest, hh, e⟩ | ⟨_, _, e⟩ | ⟨_, _, _, _, _, _, e⟩ |
    ⟨_, _, _, _, _, _, e⟩ <;> rw [e] at h <;> cases h
  · exact .inl rfl
  · exact .inr ⟨rest, hh, rfl⟩

/-- What a completion of the command in flight runs: a command, in the state as it is. -/
theorem fetchCompletion_run {c : Byte} {s u : State} {i : Instr} (h : fetchCompletion c s = .run i u) :
    u = s ∧ i.isCommand = true := by
  unfold fetchCompletion at h
  split at h
  · next j hj =>
    cases h
    exact ⟨rfl, isCommand_of_decodeCommand hj⟩
  · cases h

/-- A completion without an instruction is that of a reserved opcode (30_encoding.md R84). -/
theorem fetchCompletion_go {c : Byte} {s t : State} (h : fetchCompletion c s = .go t) :
    t = s.complete (.fail .illop) := by
  unfold fetchCompletion at h
  split at h <;> cases h
  rfl

/-- A step that finds anything to do starts in a state without a recorded fault. -/
theorem fault_of_step_next {s t : State} (h : step s = .next t) : s.fault = none := by
  cases hf : s.fault with
  | none => rfl
  | some r => rw [step_of_fault hf] at h; cases h

/-- What a step that answers a next state has done: it ran an instruction (a command, the read of `poll`, or the host's
transaction) in the state as it was but for the draw and the queue, completed a reserved opcode, let a step pass, or was
a reset. -/
theorem step_cases {s t : State} (h : step s = .next t) :
    (∃ k l i, exec i { s with wait := k, host := l } = .next t ∧
      (i.isCommand = true ∨ i = .hrd statusIndex ∨
        ∃ hd d rest, s.host = .transaction hd d :: rest ∧ decodeTransaction hd d = .instr i)) ∨
    t = s.complete (.fail .illop) ∨
    (∃ k, t = { s with wait := k }) ∨
    (∃ rest, s.host = .reset :: rest ∧ t = State.resetEvent { s with host := rest }) := by
  rcases fetch_cases (fault_of_step_next h) with ⟨_, e⟩ | ⟨c, _, _, e⟩ | ⟨c, k, _, _, e⟩ <;>
    rcases step_next h with ⟨i, u, hf, hx⟩ | hf <;> rw [e] at hf
  · obtain ⟨l, rfl, hi⟩ := fetchHost_run hf
    exact .inl ⟨s.wait, l, i, hx, .inr hi⟩
  · rcases fetchHost_go hf with rfl | hr
    · exact .inr (.inr (.inl ⟨t.wait, rfl⟩))
    · exact .inr (.inr (.inr hr))
  · obtain ⟨rfl, hi⟩ := fetchCompletion_run hf
    exact .inl ⟨u.wait, u.host, i, hx, .inl hi⟩
  · exact .inr (.inl (fetchCompletion_go hf))
  · obtain ⟨l, rfl, hi⟩ := fetchHost_run hf
    exact .inl ⟨k, l, i, hx, .inr hi⟩
  · rcases fetchHost_go hf with rfl | hr
    · exact .inr (.inr (.inl ⟨k, rfl⟩))
    · exact .inr (.inr (.inr hr))

/-- The completion step of a reserved opcode fails with ILLOP (30_encoding.md R84). -/
theorem step_of_reserved {c : Byte} {s : State} (hc : decodeCommand c = .reject .reservedOpcode)
    (hf : s.fault = none) (hp : s.pending = some c) (hw : s.wait = 0) :
    step s = .next (s.failWith .illop) := by
  simp only [step, fetch, fetchCompletion, hf, hp, hw, hc, State.complete_fail]

end Sys2Proof.Machine
end

section
/-! PROOFS. The invariant of the state (10_state.md R31, R34): each operation keeps it, so every step does. -/

namespace Sys2Proof.Machine

/-- After a success the invariant is left to BUF and the results. -/
theorem StateInv.of_success {t : State} (hst : t.status = statusOk) (hp : t.pending = none) (hbuf : t.buf.wf = true)
    (hr : t.rLo.isSome = t.rHi.isSome) (hr2 : t.r2Lo.isSome = t.r2Hi.isSome) : StateInv t := by
  refine ⟨by rw [hst]; decide, ?_, hbuf, hr, hr2, fun hf => ?_⟩
  · rw [State.busy, hst, hp]; rfl
  · rw [hst] at hf
    exact absurd hf (by decide)

/-- After a failure the invariant is left to BUF. -/
theorem StateInv.failWith {s : State} (hbuf : s.buf.wf = true) (c : FailCode) : StateInv (s.failWith c) := by
  refine ⟨?_, ?_, hbuf, rfl, rfl, fun _ => ⟨rfl, rfl⟩⟩
  · rw [State.failWith_status]
    cases c <;> decide
  · rw [← State.complete_fail, State.complete_busy, State.complete_pending]
    rfl

/-- Every completion keeps the invariant. -/
theorem StateInv.complete {i : Instr} {s : State} {o : CommandOutcome} (h : StateInv s) (ho : OutcomeOf i o) :
    StateInv (s.complete o) := by
  obtain ⟨_, _, hbuf, hr, hr2, _⟩ := h
  cases ho with
  | value v _ => exact .of_success rfl rfl hbuf rfl hr2
  | division a b _ =>
    obtain ⟨w, e⟩ := State.complete_division s a b
    rw [e]
    exact .of_success rfl rfl hbuf rfl rfl
  | encoding f _ =>
    rw [State.complete_bytes]
    refine .of_success (State.finish_status ..) (State.finish_pending ..) ?_ ?_ ?_
    · rw [State.finish_buf]
      exact s.storeBytes_wf _ (bytesOf_address f) hbuf
    · simpa using hr
    · simpa using hr2
  | failure c => exact .failWith hbuf c

/-- A command start keeps the invariant: BUSY and the opcode in flight are set together. -/
theorem StateInv.startCommand {s : State} (h : StateInv s) (c : Byte) : StateInv (s.startCommand c) := by
  obtain ⟨_, _, hbuf, hr, hr2, _⟩ := h
  refine ⟨?_, s.startCommand_busy c, hbuf, hr, hr2, fun hf => ?_⟩
  · rw [State.startCommand_status]; decide
  · rw [State.startCommand_status] at hf
    exact absurd hf (by decide)

/-- A host write keeps the invariant. -/
theorem StateInv.writeReg {s : State} (h : StateInv s) (r : Reg) (d : Word) : StateInv (s.writeReg r d) := by
  obtain ⟨hst, hbusy, hbuf, hr, hr2, hfail⟩ := id h
  cases r with
  | cmd => exact h.startCommand _
  | buf j => exact ⟨hst, hbusy, s.writeReg_wf (.buf j) d hbuf, hr, hr2, hfail⟩
  | _ => exact h

/-- Every instruction keeps the invariant. -/
theorem StateInv.exec {i : Instr} {s t : State} (h : StateInv s) (hx : exec i s = .next t) : StateInv t := by
  rcases exec_next hx with ⟨_, o, ho, rfl⟩ | ⟨n, d, r, _, _, _, rfl⟩ | ⟨n, v, _, rfl⟩
  · exact h.complete ho
  · exact h.writeReg r d
  · exact h

/-- The invariant holds after reset, also after one that keeps what is not the block's. -/
theorem StateInv.resetEvent (s : State) : StateInv s.resetEvent := by
  refine ⟨?_, ?_, rfl, rfl, rfl, fun _ => ⟨rfl, rfl⟩⟩
  · rw [State.resetEvent_status]; decide
  · rw [State.busy, State.resetEvent_status]; rfl

/-- Settles O51, by the cases of a step: each keeps the invariant. -/
theorem stepKeepsInvariant : Obligations.StepKeepsInvariant := by
  intro s t h hstep
  rcases step_cases hstep with ⟨k, l, i, hx, _⟩ | rfl | ⟨k, rfl⟩ | ⟨rest, _, rfl⟩
  · have hu : StateInv { s with wait := k, host := l } := h
    exact hu.exec hx
  · obtain ⟨_, _, hbuf, _⟩ := h
    exact .failWith hbuf .illop
  · exact h
  · exact .resetEvent _

/-- Settles O52: the state after reset is that of a reset event. -/
theorem resetMeetsInvariant : Obligations.ResetMeetsInvariant :=
  StateInv.resetEvent State.reset

/-- Settles O47: `State.reset` is R35's table, and CMD reads as 0 in it. -/
theorem resetValues : Obligations.ResetValues :=
  ⟨rfl, fun _ => rfl, execHrd_of (s := State.reset) (regOfIndex_index .cmd) (fun _ => rfl) rfl⟩

end Sys2Proof.Machine
end

section
/-! PROOFS. Who writes R, BUF, A and B, and what a command's outputs depend on (10_state.md R22 to R24, R33, R34). -/

namespace Sys2Proof.Machine

/-! ### Which places a completion writes -/

/-- No failure has the STATUS of a success. -/
theorem statusFail_ne_ok (c : FailCode) : statusFail c ≠ 0x02 := by
  cases c <;> decide

/-- A command that ends in a failure leaves R and R2 UNWRITTEN (60_exceptions.md R253). -/
theorem results_none_of_failure {i : Instr} {s t : State} (hi : i.isCommand = true) (h : exec i s = .next t)
    (hst : t.status ≠ 0x02) : (t.rHi = none ∧ t.rLo = none) ∧ (t.r2Hi = none ∧ t.r2Lo = none) := by
  obtain ⟨o, _, rfl, _⟩ := exec_command_outcome hi h
  cases o with
  | ok w => exact absurd (State.complete_ok_status s w) hst
  | fail c => exact ⟨⟨rfl, rfl⟩, rfl, rfl⟩

/-- A command with one place R in its column is no encode command and no division. -/
theorem not_encode_nor_division_of_writesOf {i : Instr} (h : writesOf i = [.r]) :
    ¬ (i = .encbe ∨ i = .encle) ∧ ¬ (i = .divmod ∨ i = .rdiv) := by
  constructor <;> rintro (rfl | rfl) <;> cases h

/-- The quotient is written to R whole. -/
theorem State.resultR_complete_division (s : State) (n d : Wide) :
    (s.complete (divOutcome n d)).rHi.isSome = true ∧ (s.complete (divOutcome n d)).rLo.isSome = true := by
  obtain ⟨w, e⟩ := s.complete_division n d
  simp [e]

/-- Settles O31, by the completions of a command: only an encoding stores bytes, at the addresses of `bytesOf`. -/
theorem onlyEncodeStoresToBuf : Obligations.OnlyEncodeStoresToBuf := by
  intro i s t hi h
  rcases exec_command_next hi h with ⟨v, rfl, _⟩ | ⟨a, b, _, _, _, rfl, _⟩ | ⟨f, rfl, henc⟩ | ⟨rfl, _⟩ | ⟨rfl, _⟩
  · exact ⟨fun _ _ => rfl, fun _ _ => rfl⟩
  · obtain ⟨w, e⟩ := s.complete_division a b
    rw [e]
    exact ⟨fun _ _ => rfl, fun _ _ => rfl⟩
  · refine ⟨fun hbe hle => absurd henc (not_or.mpr ⟨hbe, hle⟩), fun j hj => ?_⟩
    rw [State.complete_bytes, State.finish_buf, State.read_storeBytes, if_neg (by omega)]
  · exact ⟨fun _ _ => rfl, fun _ _ => rfl⟩
  · exact ⟨fun _ _ => rfl, fun _ _ => rfl⟩

/-- A success writes R whole, except an encode command's, which leaves it (10_state.md R24). -/
theorem exec_success_r {i : Instr} {s t : State} (hi : i.isCommand = true) (h : exec i s = .next t)
    (hst : t.status = 0x02) :
    (i ≠ .encbe → i ≠ .encle → t.rHi.isSome = true ∧ t.rLo.isSome = true) ∧
    (i = .encbe ∨ i = .encle → t.rHi = s.rHi ∧ t.rLo = s.rLo) := by
  rcases exec_command_next hi h with ⟨v, rfl, hw⟩ | ⟨a, b, _, _, _, rfl, hdiv⟩ | ⟨f, rfl, henc⟩ | ⟨rfl, _⟩ | ⟨rfl, _⟩
  · exact ⟨fun _ _ => ⟨rfl, rfl⟩, fun henc => absurd henc (not_encode_nor_division_of_writesOf hw).1⟩
  · refine ⟨fun _ _ => s.resultR_complete_division a b, ?_⟩
    rintro (rfl | rfl) <;> simp at hdiv
  · refine ⟨fun hbe hle => absurd henc (not_or.mpr ⟨hbe, hle⟩), fun _ => ?_⟩
    simp [State.complete_bytes]
  · exact absurd hst (statusFail_ne_ok .divz)
  · exact absurd hst (statusFail_ne_ok .badradix)

/-- Settles O34, by the completions of a command; the host's writes meet a read-only register. -/
theorem whoWritesR : Obligations.WhoWritesR := by
  refine ⟨fun _ _ _ hi h hst => exec_success_r hi h hst,
    fun _ _ _ hi h hst => (results_none_of_failure hi h hst).1, fun c s hc hf hp hw => ?_,
    ⟨rfl, rfl⟩, ⟨rfl, rfl⟩, fun s d => ?_⟩
  · exact ⟨s.failWith .illop, step_of_reserved hc hf hp hw, rfl, rfl, rfl⟩
  · exact ⟨execHwr_of_readOnly (regOfIndex_index .rLo) rfl d s, execHwr_of_readOnly (regOfIndex_index .rHi) rfl d s⟩

/-! ### What the outputs depend on -/

/-- One outcome leaves the same in every place of its column, whatever state it completes. -/
theorem OutcomeOf.writes_agree {i : Instr} {o : CommandOutcome} (ho : OutcomeOf i o) (s s' : State) :
    (s'.complete o).status = (s.complete o).status ∧
    ((s.complete o).status = 0x02 → ∀ p ∈ writesOf i, p ≠ .buf → samePlace (s.complete o) (s'.complete o) p) ∧
    ((s.complete o).status = 0x02 → .buf ∈ writesOf i →
      ∀ j, j < 16 → (s'.complete o).buf.read j = (s.complete o).buf.read j) ∧
    ((s.complete o).status ≠ 0x02 →
      samePlace (s.complete o) (s'.complete o) .r ∧ samePlace (s.complete o) (s'.complete o) .r2) := by
  cases ho with
  | value v hw => simp [hw, State.complete_okR, samePlace, statusOk]
  | division a b hw =>
    obtain ⟨w, e⟩ := s.complete_division a b
    obtain ⟨w', e'⟩ := s'.complete_division a b
    simp [hw, e, e', samePlace, statusOk]
  | encoding f hw =>
    have hread : ∀ (u : State) (j : Nat), j < 16 →
        (u.complete (.ok { bytes := bytesOf f })).buf.read j = some (f j) := by
      intro u j hj
      rw [State.complete_bytes, State.finish_buf, State.read_storeBytes, if_pos hj]
    refine ⟨rfl, fun _ p hp hne => ?_, fun _ _ j hj => by rw [hread s j hj, hread s' j hj], fun hst => ?_⟩
    · rw [hw, List.mem_singleton] at hp
      exact absurd hp hne
    · exact absurd (s.complete_ok_status _) hst
  | failure c =>
    exact ⟨rfl, fun hst => absurd hst (statusFail_ne_ok c), fun hst => absurd hst (statusFail_ne_ok c),
      fun _ => ⟨⟨rfl, rfl⟩, rfl, rfl⟩⟩

/-- Settles O36: the outcome is a function of the operands, and the outputs of the outcome. -/
theorem outputsDependOnOperandsAlone : Obligations.OutputsDependOnOperandsAlone := by
  intro i s s' t hi hs h
  obtain ⟨o, ho, rfl, hall⟩ := exec_command_outcome hi h
  exact ⟨s'.complete o, hall s' hs, ho.writes_agree s s'⟩

/-! ### Who writes A and B -/

/-- A host write leaves A and B, or names one of their halves. -/
theorem State.writeReg_operands (s : State) (r : Reg) (d : Word) :
    (samePlace s (s.writeReg r d) .a ∧ samePlace s (s.writeReg r d) .b) ∨
    (r = .aLo ∨ r = .aHi ∨ r = .bLo ∨ r = .bHi) := by
  cases r with
  | aLo | aHi | bLo | bHi => simp
  | _ => exact .inl ⟨⟨rfl, rfl⟩, rfl, rfl⟩

/-- The write headers of the halves of A and B (30_encoding.md R83, 20_memory.md R51). -/
theorem writeHeader_operand {r : Reg} (h : r = .aLo ∨ r = .aHi ∨ r = .bLo ∨ r = .bHi) :
    writeHeader r.index = 0x80 ∨ writeHeader r.index = 0x81 ∨ writeHeader r.index = 0x82 ∨
      writeHeader r.index = 0x83 := by
  rcases h with rfl | rfl | rfl | rfl <;> decide

/-- Settles O37, by the cases of a step: only a reset and a host write touch A or B. -/
theorem operandsChangeOnlyByHostOrReset : Obligations.OperandsChangeOnlyByHostOrReset := by
  intro s t hstep
  rcases step_cases hstep with ⟨k, l, i, hx, hi⟩ | rfl | ⟨k, rfl⟩ | ⟨rest, hh, rfl⟩
  · rcases exec_next hx with ⟨_, o, _, rfl⟩ | ⟨n, d, r, rfl, hr, hb, rfl⟩ | ⟨n, v, _, rfl⟩
    · obtain ⟨ha, hb, _⟩ := State.complete_frame { s with wait := k, host := l } o
      exact .inl ⟨ha, hb⟩
    · rcases hi with hi | hi | ⟨h, d', rest, hh, hd⟩
      · cases hi
      · cases hi
      · rcases State.writeReg_operands { s with wait := k, host := l } r d with hs | hop
        · exact .inl hs
        · refine .inr (.inr ⟨h, d', rest, hh, ?_, hb⟩)
          rw [eq_writeHeader_of_decode hd, ← index_of_regOfIndex hr]
          exact writeHeader_operand hop
    · exact .inl ⟨⟨rfl, rfl⟩, rfl, rfl⟩
  · exact .inl ⟨⟨rfl, rfl⟩, rfl, rfl⟩
  · exact .inl ⟨⟨rfl, rfl⟩, rfl, rfl⟩
  · have hview : (State.resetEvent { s with host := rest }).view = State.reset.view := by
      have hf := fault_of_step_next hstep
      simp [State.view, hf, State.reset]
    exact .inr (.inl ⟨rest, hh, hview, rfl⟩)

end Sys2Proof.Machine
end

section
/-! PROOFS. The word-level algorithms the division engine uses are the operations of 128-bit values: subtraction and
the shifts (41_add_sub.md R122, 43_bitwise_shift.md R155, R157), and the bit length (44_bitlen.md R173). -/

namespace Sys2Proof.Machine

/-- Subtraction with the borrow of the low word is subtraction. -/
theorem sub128_eq_sub (a b : Wide) : sub128 a b = a - b := by
  apply BitVec.eq_of_toNat_eq
  have hborrow : loWord a < loWord b ↔ a.toNat % 2 ^ 64 < b.toNat % 2 ^ 64 := by
    rw [BitVec.lt_def, toNat_loWord, toNat_loWord]
  have h1 : (1 : Word).toNat = 1 := rfl
  have h0 : (0 : Word).toNat = 0 := rfl
  have ha := a.isLt
  have hb := b.isLt
  unfold sub128
  split
  · next h =>
    rw [hborrow] at h
    simp only [toNat_joinWords, BitVec.toNat_sub, toNat_hiWord, toNat_loWord, h1]
    omega
  · next h =>
    rw [hborrow] at h
    simp only [toNat_joinWords, BitVec.toNat_sub, toNat_hiWord, toNat_loWord, h0]
    omega

/-- The left shift of the barrel shifter is the left shift. -/
theorem shl128_eq_shiftLeft (a : Wide) (n : Nat) : shl128 a n = a <<< n := by
  apply BitVec.eq_of_getLsbD_eq
  intro i hi
  unfold shl128
  split_ifs with h0 h1 h2 h3
  · rw [h0, BitVec.shiftLeft_zero]
  · grind [getLsbD_joinWords, getLsbD_loWord, getLsbD_hiWord]
  · grind [getLsbD_joinWords, getLsbD_loWord]
  · obtain ⟨m, rfl⟩ := Nat.exists_eq_add_of_le (not_lt.mp h1)
    grind [getLsbD_joinWords, getLsbD_loWord]
  · grind

/-- The right shift of the barrel shifter is the logical right shift. -/
theorem shr128_eq_ushiftRight (a : Wide) (n : Nat) : shr128 a n = a >>> n := by
  apply BitVec.eq_of_getLsbD_eq
  intro i hi
  unfold shr128
  split_ifs with h0 h1 h2 h3
  · rw [h0, BitVec.ushiftRight_zero]
  · grind [getLsbD_joinWords, getLsbD_loWord, getLsbD_hiWord]
  · grind [getLsbD_joinWords, getLsbD_hiWord]
  · grind [getLsbD_joinWords, getLsbD_hiWord]
  · grind

/-- The size of a number below `2 ^ k` with `2 ^ k` added. -/
theorem size_add_two_pow {m k : Nat} (h : m < 2 ^ k) : (m + 2 ^ k).size = k + 1 := by
  refine le_antisymm (Nat.size_le.mpr ?_) (Nat.lt_size.mpr (Nat.le_add_left _ _))
  rw [pow_succ]
  omega

/-- The highest set bit among the low `k` bits is the size of the number they make. -/
theorem highestSetBelow_eq_size (w : Word) (k : Nat) : highestSetBelow w k = (w.toNat % 2 ^ k).size := by
  induction k with
  | zero => simp [highestSetBelow, Nat.mod_one]
  | succ k ih =>
    have hbit : w.getLsbD k = decide (w.toNat / 2 ^ k % 2 = 1) := Nat.testBit_eq_decide_div_mod_eq
    unfold highestSetBelow
    rw [Nat.mod_pow_succ, hbit, ih]
    rcases Nat.mod_two_eq_zero_or_one (w.toNat / 2 ^ k) with h | h
    · simp [h]
    · simp [h, size_add_two_pow (Nat.mod_lt w.toNat (Nat.two_pow_pos k))]

/-- The bit length of a word is its size. -/
theorem bitlen64_eq_size (w : Word) : bitlen64 w = w.toNat.size := by
  rw [bitlen64, highestSetBelow_eq_size, Nat.mod_eq_of_lt w.isLt]

/-- The size of two words, by the size of the high one. -/
theorem size_mul_two_pow_add {h l k : Nat} (hh : h ≠ 0) (hl : l < 2 ^ k) :
    (h * 2 ^ k + l).size = k + h.size := by
  have hpos : 0 < h.size := Nat.size_pos.mpr (Nat.pos_of_ne_zero hh)
  refine le_antisymm (Nat.size_le.mpr ?_) ?_
  · calc h * 2 ^ k + l < (h + 1) * 2 ^ k := by rw [Nat.add_mul]; omega
      _ ≤ 2 ^ h.size * 2 ^ k := Nat.mul_le_mul_right _ (Nat.lt_size_self h)
      _ = 2 ^ (k + h.size) := by rw [← pow_add, Nat.add_comm]
  · have hlow : 2 ^ (h.size - 1) ≤ h := Nat.lt_size.mp (by omega)
    have hlt : k + (h.size - 1) < (h * 2 ^ k + l).size := by
      rw [Nat.lt_size, pow_add, Nat.mul_comm]
      exact Nat.le_add_right_of_le (Nat.mul_le_mul_right _ hlow)
    omega

/-- The bit length of a value is its size. -/
theorem bitlen_eq_size (a : Wide) : bitlen a = a.toNat.size := by
  have hjoin : a.toNat = (hiWord a).toNat * 2 ^ 64 + (loWord a).toNat := by
    rw [← toNat_joinWords, joinWords_words]
  unfold bitlen
  rw [bitlen64_eq_size, bitlen64_eq_size, hjoin]
  split
  · next h =>
    have hne : (hiWord a).toNat ≠ 0 := fun e => h (BitVec.eq_of_toNat_eq e)
    rw [size_mul_two_pow_add hne (loWord a).isLt]
  · next h =>
    simp [not_not.mp h]

end Sys2Proof.Machine
end

section
/-! PROOFS. The division loop computes the quotient and the remainder of the naturals (45_divide.md R182, R183): what
holds before and after the test of each iteration. -/

namespace Sys2Proof.Machine

/-- Before the test of the iteration with shift counter `k`: the trial divisor is `d * 2 ^ k`, quotient bits and
remainder make `n`, the next quotient bit is free, and the trial divisor fits at most once. -/
structure DivWork.BeforeTest (n d k : Nat) (w : DivWork) : Prop where
  trial : w.trial.toNat = d * 2 ^ k
  sum : w.quot.toNat * (d * 2 ^ k) + w.rem.toNat = n
  even : ∃ q, w.quot.toNat = 2 * q
  rem_lt : w.rem.toNat < 2 * (d * 2 ^ k)

/-- After that test: the remainder is below the trial divisor. -/
structure DivWork.AfterTest (n d k : Nat) (w : DivWork) : Prop where
  trial : w.trial.toNat = d * 2 ^ k
  sum : w.quot.toNat * (d * 2 ^ k) + w.rem.toNat = n
  rem_lt : w.rem.toNat < d * 2 ^ k

/-- Setting the free low bit of a value adds 1. -/
theorem toNat_or_one_of_even {a : Wide} (h : ∃ q, a.toNat = 2 * q) : (a ||| 1).toNat = a.toNat + 1 := by
  obtain ⟨q, hq⟩ := h
  have e : 2 ^ 1 * q + 1 = 2 ^ 1 * q ||| 1 := Nat.two_pow_add_eq_or_of_lt (by decide) q
  rw [BitVec.toNat_or, hq]
  exact e.symm

/-- The test of an iteration brings the remainder below the trial divisor. -/
theorem DivWork.BeforeTest.divTest {n d k : Nat} {w : DivWork} (h : w.BeforeTest n d k) :
    (divTest w).AfterTest n d k := by
  obtain ⟨htrial, hsum, heven, hlt⟩ := h
  unfold Machine.divTest
  split
  · next hle =>
    have hrem : (sub128 w.rem w.trial).toNat = w.rem.toNat - d * 2 ^ k := by
      rw [sub128_eq_sub, BitVec.toNat_sub_of_le hle, htrial]
    rw [BitVec.le_def, htrial] at hle
    refine ⟨htrial, ?_, ?_⟩
    · rw [toNat_or_one_of_even heven, hrem, Nat.add_one_mul]
      omega
    · rw [hrem]
      omega
  · next hle =>
    rw [BitVec.le_def, htrial, not_le] at hle
    exact ⟨htrial, hsum, hle⟩

/-- The move to the next iteration loses no bit of the quotient or of the trial divisor. -/
theorem DivWork.AfterTest.divAdvance {n d k : Nat} {w : DivWork} (hn : n < 2 ^ 128) (hd : 0 < d)
    (h : w.AfterTest n d (k + 1)) : (divAdvance w).BeforeTest n d k := by
  obtain ⟨htrial, hsum, hlt⟩ := h
  have hdouble : d * 2 ^ (k + 1) = 2 * (d * 2 ^ k) := by ring
  have hquot : (shl128 w.quot 1).toNat = 2 * w.quot.toNat := by
    have hfit : w.quot.toNat * 2 ≤ w.quot.toNat * (d * 2 ^ (k + 1)) :=
      Nat.mul_le_mul_left _ (hdouble ▸ Nat.le_mul_of_pos_right 2 (Nat.mul_pos hd (Nat.two_pow_pos k)))
    rw [shl128_eq_shiftLeft, BitVec.toNat_shiftLeft, Nat.shiftLeft_eq, Nat.mod_eq_of_lt (by omega)]
    ring
  refine ⟨?_, ?_, ⟨w.quot.toNat, hquot⟩, ?_⟩
  · change (shr128 w.trial 1).toNat = d * 2 ^ k
    rw [shr128_eq_ushiftRight, BitVec.toNat_ushiftRight, Nat.shiftRight_eq_div_pow, htrial, hdouble]
    omega
  · change (shl128 w.quot 1).toNat * (d * 2 ^ k) + w.rem.toNat = n
    rw [hquot, ← hsum, hdouble]
    ring
  · change w.rem.toNat < 2 * (d * 2 ^ k)
    rw [← hdouble]
    exact hlt

/-- The loop ends with a remainder below the divisor. -/
theorem DivWork.BeforeTest.divRun {n d k : Nat} {w : DivWork} (hn : n < 2 ^ 128) (hd : 0 < d)
    (h : w.BeforeTest n d k) : (divRun k w).AfterTest n d 0 := by
  induction k generalizing w with
  | zero => exact h.divTest
  | succ k ih => exact ih (h.divTest.divAdvance hn hd)

/-- The working registers before the first test, for a divisor that is not 0 and not above the dividend: aligning the
divisor's highest bit with the dividend's loses none of its bits. -/
theorem divStart_beforeTest {n d : Wide} (hd : d ≠ 0) (hle : d ≤ n) :
    (divStart n d).BeforeTest n.toNat d.toNat (bitlen n - bitlen d) := by
  have hpos : 0 < d.toNat.size := Nat.size_pos.mpr (Nat.pos_of_ne_zero fun e => hd (BitVec.eq_of_toNat_eq e))
  have hsize : d.toNat.size ≤ n.toNat.size := Nat.size_le_size hle
  have hn128 : n.toNat.size ≤ 128 := Nat.size_le.mpr n.isLt
  rw [bitlen_eq_size, bitlen_eq_size]
  have hfit : d.toNat * 2 ^ (n.toNat.size - d.toNat.size) < 2 ^ 128 :=
    calc d.toNat * 2 ^ (n.toNat.size - d.toNat.size)
        < 2 ^ d.toNat.size * 2 ^ (n.toNat.size - d.toNat.size) :=
          Nat.mul_lt_mul_of_pos_right (Nat.lt_size_self _) (Nat.two_pow_pos _)
      _ = 2 ^ n.toNat.size := by rw [← pow_add, Nat.add_sub_cancel' hsize]
      _ ≤ 2 ^ 128 := Nat.pow_le_pow_right (by decide) hn128
  have honce : n.toNat < 2 * (d.toNat * 2 ^ (n.toNat.size - d.toNat.size)) :=
    calc n.toNat < 2 ^ n.toNat.size := Nat.lt_size_self _
      _ = 2 * (2 ^ (d.toNat.size - 1) * 2 ^ (n.toNat.size - d.toNat.size)) := by
          rw [← pow_add, ← pow_succ']
          congr 1
          omega
      _ ≤ 2 * (d.toNat * 2 ^ (n.toNat.size - d.toNat.size)) :=
          Nat.mul_le_mul_left _ (Nat.mul_le_mul_right _ (Nat.lt_size.mp (by omega)))
  refine ⟨?_, ?_, ⟨0, rfl⟩, honce⟩
  · change (shl128 d (bitlen n - bitlen d)).toNat = _
    rw [bitlen_eq_size, bitlen_eq_size, shl128_eq_shiftLeft, BitVec.toNat_shiftLeft, Nat.shiftLeft_eq,
      Nat.mod_eq_of_lt hfit]
  · change 0 * _ + n.toNat = n.toNat
    rw [Nat.zero_mul, Nat.zero_add]

/-- The division loop gives the quotient and the remainder of the naturals, for a divisor that is not 0
(45_divide.md R183). -/
theorem toNat_divloop (n d : Wide) (hd : d ≠ 0) :
    (divloop n d).1.toNat = n.toNat / d.toNat ∧ (divloop n d).2.toNat = n.toNat % d.toNat := by
  have hpos : 0 < d.toNat := Nat.pos_of_ne_zero fun e => hd (BitVec.eq_of_toNat_eq e)
  unfold divloop divEngine
  by_cases hlt : n < d
  · rw [if_pos hlt]
    exact ⟨(Nat.div_eq_of_lt hlt).symm, (Nat.mod_eq_of_lt hlt).symm⟩
  · rw [if_neg hlt]
    obtain ⟨_, hsum, hrem⟩ := (divStart_beforeTest hd (BitVec.not_lt.mp hlt)).divRun n.isLt hpos
    rw [pow_zero, Nat.mul_one] at hsum hrem
    rw [Nat.mul_comm, Nat.add_comm] at hsum
    obtain ⟨hq, hr⟩ := (Nat.div_mod_unique hpos).mpr ⟨hsum, hrem⟩
    exact ⟨hq.symm, hr.symm⟩

/-- The remainder of the division loop as a value. -/
theorem divloop_snd (n d : Wide) (hd : d ≠ 0) : (divloop n d).2 = BitVec.ofNat 128 (n.toNat % d.toNat) := by
  rw [← (toNat_divloop n d hd).2, BitVec.ofNat_toNat, BitVec.setWidth_eq]

end Sys2Proof.Machine
end

section
/-! PROOFS. Who writes R2 (10_state.md R26). -/

namespace Sys2Proof.Machine

/-- After a division R2 holds the remainder. -/
theorem State.resultR2_complete_division (s : State) (n d : Wide) :
    (s.complete (divOutcome n d)).resultR2 = some (divloop n d).2 := by
  obtain ⟨w, e⟩ := s.complete_division n d
  simp [e, State.resultR2, wideOf]

/-- A success leaves R2, except a division's, which writes the remainder (10_state.md R26). -/
theorem exec_success_r2 {i : Instr} {s t : State} (hi : i.isCommand = true) (h : exec i s = .next t)
    (hst : t.status = 0x02) :
    (i ≠ .divmod → i ≠ .rdiv → t.r2Hi = s.r2Hi ∧ t.r2Lo = s.r2Lo) ∧
    (i = .divmod ∨ i = .rdiv → ∃ a b, s.operandA = some a ∧ s.operandB = some b ∧
      t.resultR2 = some (BitVec.ofNat 128 (a.toNat % b.toNat))) := by
  rcases exec_command_next hi h with ⟨v, rfl, hw⟩ | ⟨a, b, ha, hb, hb0, rfl, hdiv⟩ | ⟨f, rfl, henc⟩ | ⟨rfl, _⟩ |
    ⟨rfl, _⟩
  · exact ⟨fun _ _ => ⟨rfl, rfl⟩, fun hdiv => absurd hdiv (not_encode_nor_division_of_writesOf hw).2⟩
  · refine ⟨fun hdm hrd => absurd hdiv (not_or.mpr ⟨hdm, hrd⟩), fun _ => ⟨a, b, ha, hb, ?_⟩⟩
    rw [State.resultR2_complete_division, divloop_snd a b hb0]
  · refine ⟨fun _ _ => by simp [State.complete_bytes], ?_⟩
    rintro (rfl | rfl) <;> simp at henc
  · exact absurd hst (statusFail_ne_ok .divz)
  · exact absurd hst (statusFail_ne_ok .badradix)

/-- Settles O35, by the completions of a command and `toNat_divloop`; the host's writes meet a read-only register. -/
theorem whoWritesR2 : Obligations.WhoWritesR2 := by
  refine ⟨fun _ _ _ hi h hst => exec_success_r2 hi h hst,
    fun _ _ _ hi h hst => (results_none_of_failure hi h hst).2, fun c s hc hf hp hw => ?_,
    ⟨rfl, rfl⟩, ⟨rfl, rfl⟩, fun s d => ?_⟩
  · exact ⟨s.failWith .illop, step_of_reserved hc hf hp hw, rfl, rfl, rfl⟩
  · exact ⟨execHwr_of_readOnly (regOfIndex_index .r2Lo) rfl d s, execHwr_of_readOnly (regOfIndex_index .r2Hi) rfl d s⟩

end Sys2Proof.Machine
end

section
/-! PROOFS. The host's register space: the index map, and what each transaction answers at an index (20_memory.md R51 to
R58). The proofs speak of an index through the register it names. -/

namespace Sys2Proof.Machine

/-! ### The index map -/

/-- A read at a register's own index is a read of the register (20_memory.md R51). -/
theorem bind_readReg_index (s : State) (r : Reg) : (regOfIndex r.index).bind s.readReg = s.readReg r := by
  rw [regOfIndex_index, Option.bind_some]

/-- The indices from 0x10 on are the bytes of BUF, in order (20_memory.md R51). -/
theorem regOfIndex_buf {n : BitVec 5} (h : 0x10 ≤ n.toNat) :
    ∃ j : BitVec 4, regOfIndex n = some (.buf j) ∧ j.toNat = n.toNat - 0x10 :=
  (by decide : ∀ n : BitVec 5, 0x10 ≤ n.toNat →
    ∃ j : BitVec 4, regOfIndex n = some (.buf j) ∧ j.toNat = n.toNat - 0x10) n h

/-- The indices of the halves of R and R2 and of the bytes of BUF name registers hidden while BUSY (20_memory.md R52). -/
theorem regOfIndex_hidden {n : BitVec 5} (h : (4 ≤ n.toNat ∧ n.toNat ≤ 7) ∨ 0x10 ≤ n.toNat) :
    ∃ r ∈ regOfIndex n, r.hiddenWhileBusy = true :=
  (by decide : ∀ n : BitVec 5, (4 ≤ n.toNat ∧ n.toNat ≤ 7) ∨ 0x10 ≤ n.toNat →
    ∃ r ∈ regOfIndex n, r.hiddenWhileBusy = true) n h

/-- The indices of STATUS, CMD and the bytes of BUF name 8-bit registers (20_memory.md R53). -/
theorem regOfIndex_narrow {n : BitVec 5} (h : n = 0x08 ∨ n = 0x09 ∨ 0x10 ≤ n.toNat) :
    ∃ r ∈ regOfIndex n, r.narrow = true :=
  (by decide : ∀ n : BitVec 5, n = 0x08 ∨ n = 0x09 ∨ 0x10 ≤ n.toNat → ∃ r ∈ regOfIndex n, r.narrow = true) n h

/-- Settles O41, by the register of each index. -/
theorem registerIndexMap : Obligations.RegisterIndexMap := by
  intro s
  refine ⟨bind_readReg_index s .aLo, bind_readReg_index s .aHi, bind_readReg_index s .bLo, bind_readReg_index s .bHi,
    bind_readReg_index s .rLo, bind_readReg_index s .rHi, bind_readReg_index s .r2Lo, bind_readReg_index s .r2Hi,
    bind_readReg_index s .status, bind_readReg_index s .cmd, by decide, fun i hi => ?_⟩
  obtain ⟨j, hj, hji⟩ := regOfIndex_buf hi
  rw [hj, ← hji]
  rfl

/-! ### Protocol violations -/

/-- Data bits 63:8 are zero exactly when the data is below 256 (20_memory.md R54). -/
theorem high_bits_eq_zero_iff (d : Word) : d.extractLsb' 8 56 = 0 ↔ d.toNat < 256 := by
  have hlt := d.isLt
  rw [← BitVec.toNat_inj, BitVec.extractLsb'_toNat, Nat.shiftRight_eq_div_pow]
  change d.toNat / 2 ^ 8 % 2 ^ 56 = 0 ↔ d.toNat < 256
  omega

/-- Every host write while BUSY is a protocol violation (20_memory.md R52). -/
theorem execHwr_of_busy {s : State} (hb : s.busy = true) (n : BitVec 5) (d : Word) :
    execHwr n d s = .fault .hostProtocol := by
  unfold execHwr
  cases regOfIndex n with
  | none => rfl
  | some r => simp [hb]

/-- A host write of an 8-bit register with more than 8 bits of data is a protocol violation (20_memory.md R54). -/
theorem execHwr_of_oversized {n : BitVec 5} {r : Reg} {d : Word} (hr : regOfIndex n = some r) (hn : r.narrow = true)
    (hd : 256 ≤ d.toNat) (s : State) : execHwr n d s = .fault .hostProtocol := by
  have hbits : decide (d.extractLsb' 8 56 ≠ 0) = true :=
    decide_eq_true fun h => Nat.not_lt.mpr hd ((high_bits_eq_zero_iff d).mp h)
  simp only [execHwr, hr, hn, hbits, Bool.and_self, Bool.or_true, Bool.true_or, if_true]

/-- A host read while BUSY of a hidden register is a protocol violation (20_memory.md R52). -/
theorem execHrd_of_hidden {n : BitVec 5} {r : Reg} {s : State} (hr : regOfIndex n = some r)
    (hh : r.hiddenWhileBusy = true) (hb : s.busy = true) : execHrd n s = .fault .hostProtocol := by
  simp [execHrd, hr, hh, hb]

/-- A register not hidden while BUSY answers its value always, if it is written. -/
theorem execHrd_of_visible {r : Reg} {v : Word} {s : State} (hh : r.hiddenWhileBusy = false)
    (hv : s.readReg r = some v) : execHrd r.index s = .next (s.reply v) :=
  execHrd_of (regOfIndex_index r) (fun _ => hh) hv

/-- Settles O42: BUSY is tested by every write and by every read of a hidden register, and by no other read. -/
theorem busyRestrictions : Obligations.BusyRestrictions := by
  intro s hb
  refine ⟨execHwr_of_busy hb, fun i hi => ?_, execHrd_of_visible (r := .status) rfl rfl,
    execHrd_of_visible (r := .cmd) rfl rfl, fun _ => execHrd_of_visible (r := .aLo) rfl,
    fun _ => execHrd_of_visible (r := .aHi) rfl, fun _ => execHrd_of_visible (r := .bLo) rfl,
    fun _ => execHrd_of_visible (r := .bHi) rfl⟩
  obtain ⟨r, hr, hh⟩ := regOfIndex_hidden hi
  exact execHrd_of_hidden hr hh hb

/-! ### Reads -/

/-- A read of an 8-bit register returns a byte, zero-extended (20_memory.md R54; CMD reads as 0x00, 10_state.md R32). -/
theorem State.readReg_narrow {s : State} {r : Reg} {v : Word} (hn : r.narrow = true) (hv : s.readReg r = some v) :
    ∃ b : Byte, v = b.setWidth 64 ∧ (r = .status → b = s.status) ∧ (r = .cmd → b = 0x00) ∧
      ∀ j, r = .buf j → s.buf.read j.toNat = some b := by
  cases r with
  | status =>
    cases hv
    exact ⟨s.status, rfl, fun _ => rfl, nofun, nofun⟩
  | cmd =>
    cases hv
    exact ⟨0x00, rfl, nofun, fun _ => rfl, nofun⟩
  | buf j =>
    obtain ⟨b, hb, rfl⟩ := Option.map_eq_some_iff.mp hv
    refine ⟨b, rfl, nofun, nofun, fun k hk => ?_⟩
    cases hk
    exact hb
  | _ => cases hn

/-- Settles O43: an oversized write faults, and a read returns the byte of `State.readReg_narrow`. -/
theorem narrowRegistersUseLowByte : Obligations.NarrowRegistersUseLowByte := by
  refine ⟨fun s i d hi hd => ?_, fun s t i hi h => ?_⟩
  · obtain ⟨r, hr, hn⟩ := regOfIndex_narrow hi
    exact execHwr_of_oversized hr hn hd s
  · obtain ⟨r, hr, hn⟩ := regOfIndex_narrow hi
    obtain ⟨r', v, hr', _, hv, rfl⟩ := execHrd_next h
    cases hr.symm.trans hr'
    obtain ⟨b, rfl, hstatus, hcmd, hbuf⟩ := State.readReg_narrow hn hv
    have hlow : (b.setWidth 64).setWidth 8 = b := by simp
    refine ⟨b.setWidth 64, rfl, ?_, ?_, ?_, ?_⟩
    · rw [high_bits_eq_zero_iff, BitVec.toNat_setWidth]
      omega
    · rintro rfl
      cases (regOfIndex_index .status).symm.trans hr
      rw [hlow, hstatus rfl]
    · rintro rfl
      cases (regOfIndex_index .cmd).symm.trans hr
      rw [hlow, hcmd rfl]
    · intro h10
      obtain ⟨j, hj, hji⟩ := regOfIndex_buf h10
      cases hj.symm.trans hr
      rw [hlow, ← hji, hbuf j rfl]

/-- After a read every register reads as before (20_memory.md R56). -/
theorem State.readReg_reply (s : State) (v : Word) (r : Reg) : (s.reply v).readReg r = s.readReg r := by
  cases r <;> rfl

/-! ### Writes -/

/-- What a host write at a register's own index has done, if it answers a next state. -/
theorem eq_writeReg_of_execHwr {r : Reg} {d : Word} {s t : State} (h : execHwr r.index d s = .next t) :
    t = s.writeReg r d := by
  obtain ⟨r', hr', _, _, _, ht⟩ := execHwr_next h
  cases (regOfIndex_index r).symm.trans hr'
  exact ht

/-- A host write of a register other than CMD stores its value and does nothing else (20_memory.md R56). -/
theorem State.view_writeReg {r : Reg} (hr : r ≠ .cmd) (s : State) (d : Word) :
    (s.writeReg r d).view = s.view.stored r d := by
  cases r with
  | cmd => exact absurd rfl hr
  | _ => rfl

/-- Settles O44: a write is `State.writeReg`, and after a read every register reads as before. -/
theorem onlyCmdWriteHasSideEffect : Obligations.OnlyCmdWriteHasSideEffect := by
  refine ⟨fun s t d h => ?_, fun s t i d hi h => ?_, fun s t i h => ?_⟩
  · obtain rfl := eq_writeReg_of_execHwr (r := .cmd) h
    exact s.view_startCommand _
  · obtain ⟨r, hr, hw, _, _, rfl⟩ := execHwr_next h
    have hcmd : r ≠ .cmd := by
      rintro rfl
      exact hi (index_of_regOfIndex hr).symm
    exact ⟨r, hr, hw, State.view_writeReg hcmd s d⟩
  · obtain ⟨r, v, hr, hh, hv, rfl⟩ := execHrd_next h
    have hagain : execHrd i (s.reply v) = .next ((s.reply v).reply v) :=
      execHrd_of hr hh ((s.readReg_reply v r).trans hv)
    exact ⟨s.view_reply v, rfl, v, _, rfl, hagain, rfl⟩

/-- Settles O45: the write stores in BUF alone, by `Memory.read_write`, or in A_LO alone. -/
theorem bufAndRegistersAreApart : Obligations.BufAndRegistersAreApart := by
  refine ⟨fun s t i d hi h => ?_, fun s t d h => ?_⟩
  · obtain ⟨j, hj, hji⟩ := regOfIndex_buf hi
    obtain ⟨r, hr, _, _, _, rfl⟩ := execHwr_next h
    cases hj.symm.trans hr
    have hread (k : Nat) : (s.writeReg (.buf j) d).buf.read k =
        if k = i.toNat - 0x10 then some (d.setWidth 8) else s.buf.read k := by
      rw [← hji]
      exact Memory.read_write ..
    exact ⟨⟨rfl, rfl⟩, ⟨rfl, rfl⟩, by rw [hread, if_pos rfl], fun k hk => by rw [hread, if_neg hk]⟩
  · obtain rfl := eq_writeReg_of_execHwr (r := .aLo) h
    exact ⟨rfl, rfl⟩

end Sys2Proof.Machine
end

section
/-! PROOFS. The poll loop (20_memory.md R60): the host reads STATUS while the command is in flight, the completion does not
look at what the host has read, and the read after it is the last. -/

namespace Sys2Proof.Machine

/-! ### Which agent moves -/

/-- With nothing in flight the host moves (30_encoding.md R90). -/
theorem fetch_idle {s : State} (hf : s.fault = none) (hp : s.pending = none) : fetch s = fetchHost s := by
  simp only [fetch, hf, hp]

/-- With a command in flight and not due the host moves, and a step of the draw passes (log entry 1). -/
theorem fetch_waiting {s : State} {c : Byte} {k : Nat} (hf : s.fault = none) (hp : s.pending = some c)
    (hw : s.wait = k + 1) : fetch s = fetchHost { s with wait := k } := by
  simp only [fetch, hf, hp, hw]

/-- A command in flight that is due completes (30_encoding.md R90). -/
theorem fetch_due {s : State} {c : Byte} (hf : s.fault = none) (hp : s.pending = some c) (hw : s.wait = 0) :
    fetch s = fetchCompletion c s := by
  simp only [fetch, hf, hp, hw]

/-! ### One read of the loop -/

/-- `poll` at the head of the host's queue reads STATUS, and leaves the queue if BUSY is 0 (30_encoding.md R88). -/
theorem fetchHost_poll {s : State} {rest : List HostEvent} (hh : s.host = .poll :: rest) :
    fetchHost s = .run (.hrd statusIndex) (if s.busy then s else { s with host := rest }) := by
  simp only [fetchHost, hh]

/-- A read of STATUS always answers it (20_memory.md R52). -/
theorem exec_hrd_status (s : State) : exec (.hrd statusIndex) s = .next (s.reply (s.status.setWidth 64)) :=
  execHrd_of_visible (r := .status) rfl rfl

/-- While a command is in flight the STATUS read is 0x01 (30_encoding.md R91). -/
theorem exec_hrd_status_busy {s : State} (hst : s.status = 0x01) :
    exec (.hrd statusIndex) s = .next (s.reply 1) := by
  rw [exec_hrd_status, hst]
  rfl

/-- While the command is in flight and not due, `poll` reads STATUS once and stays. -/
theorem step_poll_waiting {s : State} {c : Byte} {rest : List HostEvent} {k : Nat} (hf : s.fault = none)
    (hp : s.pending = some c) (hw : s.wait = k + 1) (hst : s.status = 0x01) (hh : s.host = .poll :: rest) :
    step s = .next (State.reply { s with wait := k } 1) := by
  have hpoll := fetchHost_poll (s := { s with wait := k }) hh
  rw [if_pos (State.busy_of_status (s := { s with wait := k }) hst)] at hpoll
  simp only [step, fetch_waiting hf hp hw, hpoll]
  exact exec_hrd_status_busy (s := { s with wait := k }) hst

/-- With nothing in flight, `poll` reads STATUS once and leaves the queue. -/
theorem step_poll_idle {s : State} {rest : List HostEvent} (hf : s.fault = none) (hp : s.pending = none)
    (hb : s.busy = false) (hh : s.host = .poll :: rest) :
    step s = .next (State.reply { s with host := rest } (s.status.setWidth 64)) := by
  have hpoll := fetchHost_poll hh
  rw [hb, if_neg Bool.false_ne_true] at hpoll
  simp only [step, fetch_idle hf hp, hpoll]
  exact exec_hrd_status { s with host := rest }

/-- The reads of the loop until the command is due: 0x01 once for each step left of the draw. -/
theorem run_poll_waiting {s : State} {c : Byte} {rest : List HostEvent} (hf : s.fault = none)
    (hp : s.pending = some c) (hst : s.status = 0x01) (hh : s.host = .poll :: rest) (k : Nat) (l : List Word) :
    RunsTo k { s with wait := k, replies := l }
      { s with wait := 0, replies := List.replicate k 1 ++ l } := by
  induction k generalizing l with
  | zero => rfl
  | succ k ih =>
    have hread : step { s with wait := k + 1, replies := l } = .next { s with wait := k, replies := 1 :: l } :=
      step_poll_waiting (s := { s with wait := k + 1, replies := l }) hf hp rfl hst hh
    unfold RunsTo
    rw [run_succ_of_next hread, List.replicate_succ', List.append_assoc]
    exact ih (1 :: l)

/-! ### The completion -/

/-- What the host has read is no part of a completion (log entry 7). -/
theorem State.complete_replies (s : State) (l : List Word) (o : CommandOutcome) :
    State.complete { s with replies := l } o = { s.complete o with replies := l } := by
  cases o with
  | fail c => rfl
  | ok w =>
    obtain ⟨r, r2, bytes, work⟩ := w
    cases r <;> cases r2 <;> cases work <;> rfl

/-- The completion step of a due command, with an outcome that what the host has read does not touch. -/
theorem step_completion {s u : State} {c : Byte} (hp : s.pending = some c) (hw : s.wait = 0)
    (h : step s = .next u) :
    ∃ o, u = s.complete o ∧ ∀ l, step { s with replies := l } = .next { u with replies := l } := by
  have hf := fault_of_step_next h
  cases hc : decodeCommand c with
  | instr i =>
    have hstep (l : List Word) : step { s with replies := l } = exec i { s with replies := l } := by
      simp only [step, fetch_due (s := { s with replies := l }) hf hp hw, fetchCompletion, hc]
    obtain ⟨o, _, hu, hall⟩ := exec_command_outcome (isCommand_of_decodeCommand hc) ((hstep s.replies).symm.trans h)
    refine ⟨o, hu, fun l => ?_⟩
    have hsame : ∀ p ∈ readsOf i, samePlace s { s with replies := l } p := by
      intro p _
      cases p with
      | buf => exact fun _ => rfl
      | _ => exact ⟨rfl, rfl⟩
    rw [hstep, hall _ hsame, State.complete_replies, hu]
  | reject r =>
    have hstep (l : List Word) :
        step { s with replies := l } = .next (State.complete { s with replies := l } (.fail .illop)) := by
      simp only [step, fetch_due (s := { s with replies := l }) hf hp hw, fetchCompletion, hc]
    cases (hstep s.replies).symm.trans h
    exact ⟨.fail .illop, rfl, fun l => by rw [hstep, State.complete_replies]⟩

/-- Settles O55: the reads while the command is in flight, its completion, and the one read after it. -/
theorem pollLoopEnds : Obligations.PollLoopEnds := by
  intro s u c rest hf hp hst hh hstep
  have hwait : RunsTo s.wait s { s with wait := 0, replies := List.replicate s.wait 1 ++ s.replies } :=
    run_poll_waiting hf hp hst hh s.wait s.replies
  obtain ⟨o, hu, hcomplete⟩ := step_completion (s := { s with wait := 0 }) hp rfl hstep
  obtain ⟨_, _, hufault, _, _, huhost, _⟩ := State.complete_frame { s with wait := 0 } o
  rw [← hu] at hufault huhost
  have hupending : u.pending = none := hu ▸ State.complete_pending _ o
  have hubusy : u.busy = false := hu ▸ State.complete_busy _ o
  generalize List.replicate s.wait 1 ++ s.replies = l at hwait ⊢
  have hlast := step_poll_idle (s := { u with replies := l }) (hufault.trans hf) hupending hubusy (huhost.trans hh)
  refine ⟨State.reply { u with replies := l, host := rest } (u.status.setWidth 64), ?_, rfl, rfl, rfl⟩
  unfold RunsTo
  rw [run_add 2 hwait, run_succ_of_next (hcomplete l), run_one]
  exact hlast

end Sys2Proof.Machine
end

section
/-! PROOFS. The decoder and the encoder (30_encoding.md R82 to R85): a header is read off its fields, an opcode off its row
of the map, and each is the encoding of what it decodes to. -/

namespace Sys2Proof.Machine

/-! ### Headers -/

/-- A header with H[6:5] = 00 and H[7] = 1 is a write of index H[4:0] (30_encoding.md R83). -/
theorem decodeTransaction_of_write {h : Byte} (h65 : h.extractLsb' 5 2 = 0) (h7 : h.getLsbD 7 = true) (d : Word) :
    decodeTransaction h d = .instr (.hwr (h.extractLsb' 0 5) d) := by
  simp [decodeTransaction, h65, h7]

/-- A header with H[6:5] = 00 and H[7] = 0 is a read of index H[4:0] (30_encoding.md R83). -/
theorem decodeTransaction_of_read {h : Byte} (h65 : h.extractLsb' 5 2 = 0) (h7 : h.getLsbD 7 = false) (d : Word) :
    decodeTransaction h d = .instr (.hrd (h.extractLsb' 0 5)) := by
  simp only [decodeTransaction, h65, h7, ne_eq, not_true_eq_false, if_false, Bool.false_eq_true]

/-- A header with H[6:5] other than 00 does not decode (30_encoding.md R83). -/
theorem decodeTransaction_of_reserved {h : Byte} (h65 : h.extractLsb' 5 2 ≠ 0) (d : Word) :
    decodeTransaction h d = .reject .reservedHeaderBits := by
  simp only [decodeTransaction, if_pos h65]

/-- The fields of a write header (30_encoding.md R83). -/
theorem writeHeader_fields (n : BitVec 5) : (writeHeader n).extractLsb' 5 2 = 0 ∧
    (writeHeader n).getLsbD 7 = true ∧ (writeHeader n).extractLsb' 0 5 = n :=
  (by decide : ∀ n : BitVec 5, (writeHeader n).extractLsb' 5 2 = 0 ∧ (writeHeader n).getLsbD 7 = true ∧
    (writeHeader n).extractLsb' 0 5 = n) n

/-- The fields of a read header (30_encoding.md R83). -/
theorem readHeader_fields (n : BitVec 5) : (readHeader n).extractLsb' 5 2 = 0 ∧
    (readHeader n).getLsbD 7 = false ∧ (readHeader n).extractLsb' 0 5 = n :=
  (by decide : ∀ n : BitVec 5, (readHeader n).extractLsb' 5 2 = 0 ∧ (readHeader n).getLsbD 7 = false ∧
    (readHeader n).extractLsb' 0 5 = n) n

/-- The write header of an index decodes to the write of that index. -/
theorem decodeTransaction_writeHeader (n : BitVec 5) (d : Word) :
    decodeTransaction (writeHeader n) d = .instr (.hwr n d) := by
  obtain ⟨h65, h7, h40⟩ := writeHeader_fields n
  rw [decodeTransaction_of_write h65 h7, h40]

/-- The read header of an index decodes to the read of that index, whatever the data word (log entry 11). -/
theorem decodeTransaction_readHeader (n : BitVec 5) (d : Word) :
    decodeTransaction (readHeader n) d = .instr (.hrd n) := by
  obtain ⟨h65, h7, h40⟩ := readHeader_fields n
  rw [decodeTransaction_of_read h65 h7, h40]

/-- A header with W = 0 and H[6:5] = 00 is the read header of its index (30_encoding.md R83). -/
theorem eq_readHeader {h : Byte} (h65 : h.extractLsb' 5 2 = 0) (h7 : h.getLsbD 7 = false) :
    h = readHeader (h.extractLsb' 0 5) :=
  (by decide : ∀ h : Byte, h.extractLsb' 5 2 = 0 → h.getLsbD 7 = false → h = readHeader (h.extractLsb' 0 5))
    h h65 h7

/-- What a transaction that decodes is: a write under its index's write header, or a read under its read header. -/
theorem decodeTransaction_cases {h : Byte} {d : Word} {i : Instr} (hd : decodeTransaction h d = .instr i) :
    ∃ n, (h = writeHeader n ∧ i = .hwr n d) ∨ (h = readHeader n ∧ i = .hrd n) := by
  by_cases h65 : h.extractLsb' 5 2 = 0
  · cases h7 : h.getLsbD 7 with
    | true =>
      cases (decodeTransaction_of_write h65 h7 d).symm.trans hd
      exact ⟨_, .inl ⟨eq_writeHeader h65 h7, rfl⟩⟩
    | false =>
      cases (decodeTransaction_of_read h65 h7 d).symm.trans hd
      exact ⟨_, .inr ⟨eq_readHeader h65 h7, rfl⟩⟩
  · rw [decodeTransaction_of_reserved h65] at hd
    cases hd

/-- The write header of a byte of BUF (30_encoding.md R83). -/
theorem writeHeader_buf (i : BitVec 4) : writeHeader (Reg.buf i).index = 0x90 + i.setWidth 8 :=
  (by decide : ∀ i : BitVec 4, writeHeader (Reg.buf i).index = 0x90 + i.setWidth 8) i

/-! ### Opcodes -/

/-- An opcode that decodes is a row of the opcode map (30_encoding.md R85). -/
theorem mem_opcodeMap_of_decodeCommand {c : Byte} {i : Instr} (h : decodeCommand c = .instr i) :
    (c, i) ∈ opcodeMap := by
  unfold decodeCommand at h
  split at h
  · next j hj =>
    cases h
    obtain ⟨l₁, l₂, hl, _⟩ := List.lookup_eq_some_iff.mp hj
    simp [hl]
  · cases h

/-- Each row of the opcode map is the encoding of its instruction. -/
theorem encode_of_mem_opcodeMap {c : Byte} {i : Instr} (h : (c, i) ∈ opcodeMap) : encode i = .command c :=
  (by decide : ∀ e ∈ opcodeMap, encode e.2 = .command e.1) (c, i) h

/-- An opcode is reserved exactly when it is in no row of the opcode map (30_encoding.md R84). -/
theorem decodeCommand_reserved_iff (c : Byte) :
    decodeCommand c = .reject .reservedOpcode ↔ c ∉ opcodeMap.map Prod.fst := by
  unfold decodeCommand
  cases h : opcodeMap.lookup c with
  | none =>
    refine iff_of_true rfl fun hc => ?_
    obtain ⟨e, he, rfl⟩ := List.mem_map.mp hc
    exact absurd rfl (bne_iff_ne.mp (List.lookup_eq_none_iff.mp h e he))
  | some i =>
    have hmem : (c, i) ∈ opcodeMap := mem_opcodeMap_of_decodeCommand (by simp only [decodeCommand, h])
    exact iff_of_false nofun (not_not.mpr (List.mem_map_of_mem hmem))

/-- The CMD values that are opcodes are those of the map's 28 rows, each once. -/
theorem length_filter_opcodes :
    ((List.range 256).filter fun n => BitVec.ofNat 8 n ∈ opcodeMap.map Prod.fst).length = 28 := by
  have hnodup : (opcodeMap.map fun e => e.1.toNat).Nodup := by decide
  have hperm : ((List.range 256).filter fun n => BitVec.ofNat 8 n ∈ opcodeMap.map Prod.fst).Perm
      (opcodeMap.map fun e => e.1.toNat) := by
    refine (List.perm_ext_iff_of_nodup (List.nodup_range.filter _) hnodup).mpr fun n => ?_
    simp only [List.mem_filter, List.mem_range, decide_eq_true_eq, List.mem_map]
    constructor
    · rintro ⟨hn, e, he, hen⟩
      exact ⟨e, he, by rw [hen, BitVec.toNat_ofNat, Nat.mod_eq_of_lt hn]⟩
    · rintro ⟨e, he, rfl⟩
      exact ⟨e.1.isLt, e, he, by simp⟩
  exact hperm.length_eq

/-- The values of a list that are reserved are those that are no opcode. -/
theorem length_filter_reserved (l : List Nat) :
    (l.filter fun n => decodeCommand (BitVec.ofNat 8 n) = .reject .reservedOpcode).length =
      l.length - (l.filter fun n => BitVec.ofNat 8 n ∈ opcodeMap.map Prod.fst).length := by
  have hsplit := l.length_eq_length_filter_add fun n => BitVec.ofNat 8 n ∈ opcodeMap.map Prod.fst
  simp only [decodeCommand_reserved_iff, decide_not]
  omega

/-- 228 of the 256 CMD values are reserved (30_encoding.md R84). -/
theorem length_filter_reserved_range : ((List.range 256).filter fun n =>
    decodeCommand (BitVec.ofNat 8 n) = .reject .reservedOpcode).length = 228 :=
  (length_filter_reserved _).trans (congrArg₂ (· - ·) List.length_range length_filter_opcodes)

/-! ### Decode and encode -/

/-- Decoding an encoding gives the instruction back. -/
theorem decode_encode (i : Instr) : decode (encode i) = .instr i := by
  cases i with
  | hwr n d => exact decodeTransaction_writeHeader n d
  | hrd n => exact decodeTransaction_readHeader n 0
  | _ => rfl

/-- Settles O2: `decode_encode`, and what decodes is a row of the opcode map or has one of the two headers. -/
theorem decodeOfEncodeIsIdentity : Obligations.DecodeOfEncodeIsIdentity := by
  refine ⟨decode_encode, fun k i hk => ?_⟩
  cases k with
  | command c => exact .inl (encode_of_mem_opcodeMap (mem_opcodeMap_of_decodeCommand hk))
  | transaction h d =>
    obtain ⟨n, ⟨rfl, rfl⟩ | ⟨rfl, rfl⟩⟩ := decodeTransaction_cases hk
    · exact .inl rfl
    · exact .inr ⟨readHeader n, d, n, rfl, rfl, rfl⟩

/-- Settles O1, by evaluating the decoder. -/
theorem sampleWordsDecode : Obligations.SampleWordsDecode := by
  unfold Obligations.SampleWordsDecode
  decide

end Sys2Proof.Machine
end

section
/-! PROOFS. What a step does by which agent moves (30_encoding.md R90): it completes the command that is due, or runs the
transaction at the head of the host's queue. -/

namespace Sys2Proof.Machine

/-! ### The completion of a due command -/

/-- The completion step of a defined opcode runs its command in the state as it is (30_encoding.md R92). -/
theorem step_of_due {s : State} {c : Byte} {i : Instr} (hf : s.fault = none) (hp : s.pending = some c)
    (hw : s.wait = 0) (hc : decodeCommand c = .instr i) : step s = exec i s := by
  simp only [step, fetch_due hf hp hw, fetchCompletion, hc]

/-- The only rejection of an opcode is that it is reserved (30_encoding.md R84). -/
theorem decodeCommand_reject {c : Byte} {r : Reject} (h : decodeCommand c = .reject r) : r = .reservedOpcode := by
  unfold decodeCommand at h
  split at h <;> cases h
  rfl

/-! ### The host's transaction -/

/-- A transaction that decodes leaves the host's queue and runs. -/
theorem fetchHost_of_instr {s : State} {h : Byte} {d : Word} {rest : List HostEvent} {i : Instr}
    (hh : s.host = .transaction h d :: rest) (hd : decodeTransaction h d = .instr i) :
    fetchHost s = .run i { s with host := rest } := by
  simp only [fetchHost, hh, hd]

/-- A transaction that does not decode is a protocol violation (30_encoding.md R83). -/
theorem fetchHost_of_reject {s : State} {h : Byte} {d : Word} {rest : List HostEvent} {r : Reject}
    (hh : s.host = .transaction h d :: rest) (hd : decodeTransaction h d = .reject r) :
    fetchHost s = .stop .hostProtocol := by
  simp only [fetchHost, hh, hd]

/-- With nothing in flight the step runs the host's transaction. -/
theorem step_of_idle_transaction {s : State} {h : Byte} {d : Word} {rest : List HostEvent} {i : Instr}
    (hf : s.fault = none) (hp : s.pending = none) (hh : s.host = .transaction h d :: rest)
    (hd : decodeTransaction h d = .instr i) : step s = exec i { s with host := rest } := by
  simp only [step, fetch_idle hf hp, fetchHost_of_instr hh hd]

/-- With a command in flight and not due the step runs the host's transaction, and a step of the draw passes. -/
theorem step_of_waiting_transaction {s : State} {c h : Byte} {d : Word} {rest : List HostEvent} {i : Instr} {k : Nat}
    (hf : s.fault = none) (hp : s.pending = some c) (hw : s.wait = k + 1) (hh : s.host = .transaction h d :: rest)
    (hd : decodeTransaction h d = .instr i) : step s = exec i { s with host := rest, wait := k } := by
  simp only [step, fetch_waiting hf hp hw, fetchHost_of_instr (s := { s with wait := k }) hh hd]

/-- Where the host moves, a malformed header is a protocol violation (30_encoding.md R83). -/
theorem step_of_malformed_header {s : State} {h : Byte} {d : Word} {rest : List HostEvent} {r : Reject}
    (hf : s.fault = none) (hmove : s.pending = none ∨ 0 < s.wait) (hh : s.host = .transaction h d :: rest)
    (hd : decodeTransaction h d = .reject r) : step s = .fault .hostProtocol := by
  cases hp : s.pending with
  | none => simp only [step, fetch_idle hf hp, fetchHost_of_reject hh hd]
  | some c =>
    obtain ⟨k, hk⟩ := Nat.exists_eq_add_one.mpr (hmove.resolve_left (by simp [hp]))
    simp only [step, fetch_waiting hf hp hk, fetchHost_of_reject (s := { s with wait := k }) hh hd]

/-- Settles O4, by the agent that moves. -/
theorem stepRunsDecodedInstruction : Obligations.StepRunsDecodedInstruction := by
  refine ⟨fun _ _ _ hf hp hw hc => step_of_due hf hp hw hc, fun s c r hf hp hw hc => ?_,
    fun _ _ _ _ _ hf hp hh hd => step_of_idle_transaction hf hp hh hd,
    fun _ _ _ _ _ _ _ hf hp hw hh hd => step_of_waiting_transaction hf hp hw hh hd⟩
  obtain rfl := decodeCommand_reject hc
  exact step_of_reserved hc hf hp hw

/-- Settles O3: the decoder's three cases, and the headers R83 writes out as write and read headers of their index. -/
theorem headerSelectsTransaction : Obligations.HeaderSelectsTransaction := by
  refine ⟨fun _ d h65 h7 => decodeTransaction_of_write h65 h7 d,
    fun _ d h65 h7 => decodeTransaction_of_read h65 h7 d,
    fun _ _ d _ h65 hf hmove hh => step_of_malformed_header hf hmove hh (decodeTransaction_of_reserved h65 d),
    fun s r v hb hv => execHrd_of (regOfIndex_index r) (by simp [hb]) hv,
    decodeTransaction_writeHeader Reg.aLo.index, decodeTransaction_readHeader Reg.status.index,
    decodeTransaction_writeHeader Reg.cmd.index, fun i d => ?_⟩
  rw [← writeHeader_buf]
  exact decodeTransaction_writeHeader _ d

/-! ### The write of CMD -/

/-- A byte written to CMD while BUSY is 0 starts the command (30_encoding.md R91). -/
theorem exec_hwr_cmd {s : State} (hb : s.busy = false) (c : Byte) :
    exec (.hwr Reg.cmd.index (c.setWidth 64)) s = .next (s.startCommand c) := by
  have hfits : (c.setWidth 64).extractLsb' 8 56 = 0 := by
    rw [high_bits_eq_zero_iff, BitVec.toNat_setWidth]
    omega
  have hlow : (c.setWidth 64).setWidth 8 = c := by simp
  have hwrite := execHwr_of (regOfIndex_index .cmd) rfl (fun _ => hfits) hb
  rw [State.writeReg, hlow] at hwrite
  exact hwrite

/-- Settles O38: the start, the completion on the state as it is then, and the writes refused in between. -/
theorem cmdWriteStartsCommand : Obligations.CmdWriteStartsCommand :=
  ⟨fun s c hb => ⟨s.startCommand c, exec_hwr_cmd hb c, rfl, rfl, rfl, rfl⟩,
    fun _ _ _ hf hp hw hc => step_of_due hf hp hw hc, fun _ n d hb => execHwr_of_busy hb n d⟩

/-- Settles O5: the values outside the opcode map's 28 rows are counted; their completion is `step_of_reserved`. -/
theorem reservedOpcodeCompletesWithIllop : Obligations.ReservedOpcodeCompletesWithIllop :=
  ⟨length_filter_reserved_range, by decide, by decide,
    fun s _ hc hf hp hw => ⟨s.failWith .illop, step_of_reserved hc hf hp hw, s.view_failWith .illop⟩,
    fun s c hb => ⟨s.startCommand c, exec_hwr_cmd hb c, s.view_startCommand c⟩⟩

end Sys2Proof.Machine
end

section
/-! PROOFS. What every command does and leaves (30_encoding.md R82, R92): when it faults, and the frame of a success. -/

namespace Sys2Proof.Machine

/-! ### When a command completes -/

/-- A command is one of the three shapes, the one that reads its "reads" column (30_encoding.md R82). -/
theorem exec_shape {i : Instr} (hi : i.isCommand = true) :
    (readsOf i = [.a] ∧ ∃ f, ∀ s, exec i s = onA s f) ∨
    (readsOf i = [.a, .b] ∧ ∃ f, ∀ s, exec i s = onAB s f) ∨
    (readsOf i = [.buf] ∧ ∃ f, ∀ s, exec i s = onBuf s f) := by
  cases i with
  | hwr | hrd => cases hi
  | decbe | decle => exact .inr (.inr ⟨rfl, _, fun _ => rfl⟩)
  | inc | dec | neg | not | msbidx | lsbidx | popcnt | encbe | encle => exact .inl ⟨rfl, _, fun _ => rfl⟩
  | _ => exact .inr (.inl ⟨rfl, _, fun _ => rfl⟩)

/-- A command with an operand that is not written whole is the UNWRITTEN_READ fault (30_encoding.md R92). -/
theorem exec_of_unwritten {i : Instr} {s : State} (hi : i.isCommand = true)
    (h : ∃ p ∈ readsOf i, s.written p = false) : exec i s = .fault .unwrittenRead := by
  rcases exec_shape hi with ⟨hr, f, hf⟩ | ⟨hr, f, hf⟩ | ⟨hr, f, hf⟩ <;> rw [hf] <;>
    simp only [hr, List.mem_cons, List.not_mem_nil, or_false, exists_eq_or_imp, exists_eq_left, State.written,
      Option.isSome_eq_false_iff, Option.isNone_iff_eq_none] at h
  · exact onA_of_none h f
  · exact onAB_of_none h f
  · exact onBuf_of_none h f

/-- A command with every operand written whole completes (30_encoding.md R92). -/
theorem exec_of_written {i : Instr} {s : State} (hi : i.isCommand = true)
    (h : ∀ p ∈ readsOf i, s.written p = true) : ∃ t, exec i s = .next t := by
  rcases exec_shape hi with ⟨hr, f, hf⟩ | ⟨hr, f, hf⟩ | ⟨hr, f, hf⟩ <;> rw [hf] <;> rw [hr] at h
  · obtain ⟨a, ha⟩ := Option.isSome_iff_exists.mp (h .a (by decide))
    exact ⟨_, onA_of_some ha f⟩
  · obtain ⟨a, ha⟩ := Option.isSome_iff_exists.mp (h .a (by decide))
    obtain ⟨b, hb⟩ := Option.isSome_iff_exists.mp (h .b (by decide))
    exact ⟨_, onAB_of_some ha hb f⟩
  · obtain ⟨bs, hbs⟩ := Option.isSome_iff_exists.mp (h .buf (by decide))
    exact ⟨_, onBuf_of_some hbs f⟩

/-- Settles O29, by the shape of the command. -/
theorem commandFaultsExactlyOnUnwrittenOperand : Obligations.CommandFaultsExactlyOnUnwrittenOperand :=
  fun _ _ hi => ⟨exec_of_unwritten hi, exec_of_written hi⟩

/-! ### The frame of a success -/

/-- A completion that is no failure leaves every place outside the "writes" column (30_encoding.md R82). -/
theorem OutcomeOf.frame {i : Instr} {o : CommandOutcome} (ho : OutcomeOf i o) {s : State}
    (hst : (s.complete o).status = 0x02) {p : Place} (hp : p ∉ writesOf i) : samePlace s (s.complete o) p := by
  cases ho with
  | value v hw =>
    rw [hw] at hp
    cases p with
    | r => simp at hp
    | _ => simp [samePlace, State.complete_okR]
  | division a b hw =>
    rw [hw] at hp
    obtain ⟨w, e⟩ := s.complete_division a b
    cases p with
    | r | r2 => simp at hp
    | _ => simp [samePlace, e]
  | encoding f hw =>
    rw [hw] at hp
    cases p with
    | buf => simp at hp
    | _ => simp [samePlace, State.complete_bytes]
  | failure c => exact absurd hst (statusFail_ne_ok c)

/-- Only a division that succeeds touches the working registers (log entry 4). -/
theorem exec_divWork {i : Instr} {s t : State} (hi : i.isCommand = true) (h : exec i s = .next t)
    (hdiv : (i ≠ .divmod ∧ i ≠ .rdiv) ∨ t.status ≠ 0x02) : t.divWork = s.divWork := by
  rcases exec_command_next hi h with ⟨v, rfl, _⟩ | ⟨a, b, _, _, _, rfl, hdm⟩ | ⟨f, rfl, _⟩ | ⟨rfl, _⟩ | ⟨rfl, _⟩
  · rfl
  · rcases hdiv with hne | hst
    · exact absurd hdm (not_or.mpr hne)
    · exact absurd (State.complete_ok_status s _) hst
  · rw [State.complete_bytes, State.finish_divWork, State.storeBytes_divWork]
  · rfl
  · rfl

/-- Settles O30, by the outcomes of a command. -/
theorem successfulCommandFrame : Obligations.SuccessfulCommandFrame := by
  intro i s t hi h
  refine ⟨fun hst => ?_, exec_divWork hi h⟩
  obtain ⟨o, ho, rfl, _⟩ := exec_command_outcome hi h
  obtain ⟨_, _, hfault, hmodel⟩ := s.complete_frame o
  exact ⟨s.complete_pending o, fun _ hp => ho.frame hst hp, hfault, hmodel⟩

end Sys2Proof.Machine
end

section
/-! PROOFS. The host's transactions by their index (30_encoding.md R86): which are malformed, and what the others answer.
Well-formedness speaks of index ranges, the meaning of registers; the index map connects them (20_memory.md R51). -/

namespace Sys2Proof.Machine

/-! ### Well-formedness -/

/-- The reserved indices are those without a register (20_memory.md R51). -/
theorem indexReserved_eq (n : BitVec 5) : indexReserved n = (regOfIndex n).isNone :=
  (by decide : ∀ n : BitVec 5, indexReserved n = (regOfIndex n).isNone) n

/-- The index ranges of WellFormed.lean and the registers' own classes agree (20_memory.md R51, R53). -/
theorem indexClasses_of_regOfIndex {n : BitVec 5} {r : Reg} (h : regOfIndex n = some r) :
    indexReadOnly n = !r.writable ∧ indexNarrow n = r.narrow :=
  (by decide : ∀ n : BitVec 5, ∀ r ∈ regOfIndex n, indexReadOnly n = !r.writable ∧ indexNarrow n = r.narrow) n r h

/-- A read is well formed exactly when its index names a register. -/
theorem wellFormed_hrd (n : BitVec 5) : (Instr.hrd n).wellFormed = (regOfIndex n).isSome := by
  simp only [Instr.wellFormed, indexReserved_eq, Option.not_isNone]

/-- A write is well formed exactly when its index names a writable register that the data fits. -/
theorem wellFormed_hwr_iff (n : BitVec 5) (d : Word) : (Instr.hwr n d).wellFormed = true ↔
    ∃ r, regOfIndex n = some r ∧ r.writable = true ∧ (r.narrow = true → d.toNat < 256) := by
  rw [Instr.wellFormed, indexReserved_eq]
  cases hr : regOfIndex n with
  | none => simp
  | some r =>
    obtain ⟨hro, hn⟩ := indexClasses_of_regOfIndex hr
    rw [hro, hn]
    cases hnarrow : r.narrow <;> simp [hnarrow]

/-! ### Writes -/

/-- A write that is not well formed is a protocol violation (20_memory.md R51, R54). -/
theorem execHwr_of_malformed {n : BitVec 5} {d : Word} (h : (Instr.hwr n d).wellFormed = false) (s : State) :
    execHwr n d s = .fault .hostProtocol := by
  cases hr : regOfIndex n with
  | none => simp only [execHwr, hr]
  | some r =>
    by_cases hw : r.writable = true
    · have hbad : ¬ (r.narrow = true → d.toNat < 256) := fun hfits =>
        absurd ((wellFormed_hwr_iff n d).mpr ⟨r, hr, hw, hfits⟩) (by simp [h])
      obtain ⟨hn, hd⟩ := Classical.not_imp.mp hbad
      exact execHwr_of_oversized hr hn (Nat.not_lt.mp hd) s
    · exact execHwr_of_readOnly hr (by simpa using hw) d s

/-- A host write leaves the working registers, the host's queue and the words read. -/
theorem State.writeReg_keeps (s : State) (r : Reg) (d : Word) : (s.writeReg r d).divWork = s.divWork ∧
    (s.writeReg r d).host = s.host ∧ (s.writeReg r d).replies = s.replies := by
  cases r <;> exact ⟨rfl, rfl, rfl⟩

/-- A host write of a register other than CMD leaves the model's own fields. -/
theorem State.writeReg_sameModelFields {r : Reg} (hr : r ≠ .cmd) (s : State) (d : Word) :
    sameModelFields s (s.writeReg r d) := by
  cases r with
  | cmd => exact absurd rfl hr
  | _ => exact ⟨rfl, rfl, rfl, rfl⟩

/-- Settles O39: a malformed or busy write faults, and every other one is `State.writeReg`. -/
theorem hwrStoresOrFaults : Obligations.HwrStoresOrFaults := by
  refine fun s n d => ⟨?_, fun hwf hb => ?_⟩
  · rintro (hwf | hb)
    · exact execHwr_of_malformed hwf s
    · exact execHwr_of_busy hb n d
  · obtain ⟨r, hr, hw, hfits⟩ := (wellFormed_hwr_iff n d).mp hwf
    have hanswer := execHwr_of hr hw (fun hn => (high_bits_eq_zero_iff d).mpr (hfits hn)) hb
    refine ⟨r, s.writeReg r d, hr, index_of_regOfIndex hr, hanswer, ?_,
      fun hcmd => ⟨State.view_writeReg hcmd s d, State.writeReg_sameModelFields hcmd s d⟩, s.writeReg_keeps r d⟩
    rintro rfl
    exact s.view_startCommand _

/-! ### Reads -/

/-- A read of an index without a register is a protocol violation (20_memory.md R51). -/
theorem execHrd_of_reserved {n : BitVec 5} (hr : regOfIndex n = none) (s : State) :
    execHrd n s = .fault .hostProtocol := by
  simp only [execHrd, hr]

/-- A host read of a readable register that is UNWRITTEN is the UNWRITTEN_READ fault (10_state.md R25). -/
theorem execHrd_of_unwritten {n : BitVec 5} {r : Reg} {s : State} (hr : regOfIndex n = some r)
    (hb : s.busy = true → r.hiddenWhileBusy = false) (hv : s.readReg r = none) :
    execHrd n s = .fault .unwrittenRead := by
  have hvisible : ¬ (s.busy && r.hiddenWhileBusy) = true := by simpa using hb
  simp only [execHrd, hr, if_neg hvisible, hv]

/-- The halves of A and B, STATUS and CMD can be read always (20_memory.md R52). -/
theorem visible_of_regOfIndex {n : BitVec 5} {r : Reg} (hr : regOfIndex n = some r)
    (hn : n.toNat ≤ 3 ∨ n = 0x08 ∨ n = 0x09) : r.hiddenWhileBusy = false :=
  (by decide : ∀ n : BitVec 5, ∀ r ∈ regOfIndex n, n.toNat ≤ 3 ∨ n = 0x08 ∨ n = 0x09 → r.hiddenWhileBusy = false)
    n r hr hn

/-- Settles O40, by the register of the index: none, hidden, or readable. -/
theorem hrdReturnsValueOrFaults : Obligations.HrdReturnsValueOrFaults := by
  refine fun s n => ⟨fun hwf => ?_, fun hb hn => ?_, fun hwf hread => ?_⟩
  · rw [wellFormed_hrd, Option.isSome_eq_false_iff, Option.isNone_iff_eq_none] at hwf
    exact execHrd_of_reserved hwf s
  · obtain ⟨r, hr, hh⟩ := regOfIndex_hidden hn
    exact execHrd_of_hidden hr hh hb
  · rw [wellFormed_hrd] at hwf
    obtain ⟨r, hr⟩ := Option.isSome_iff_exists.mp hwf
    have hvisible : s.busy = true → r.hiddenWhileBusy = false := fun hb =>
      visible_of_regOfIndex hr (hread.resolve_left (by simp [hb]))
    exact ⟨r, hr, index_of_regOfIndex hr, fun _ => execHrd_of hr hvisible, execHrd_of_unwritten hr hvisible⟩

end Sys2Proof.Machine
end

section
/-! PROOFS. The placement of a table word (log entries 9, 10): the boot duty of 70_reset_and_hazards.md R282 writes every
operand of the placed command and leaves what decides the next step. -/

namespace Sys2Proof.Machine

/-! ### The boot duty -/

/-- A booted half is written. -/
@[simp] theorem isSome_bootHalf (h : Option Word) : (bootHalf h).isSome = true := by
  cases h <;> rfl

/-- A booted byte is written, and no written byte is lost. -/
theorem isSome_read_bootByte (m : Memory) (i j : Nat) :
    ((bootByte m i).read j).isSome = (decide (j = i) || (m.read j).isSome) := by
  unfold bootByte
  by_cases hj : j = i
  · subst hj
    cases h : m.read j with
    | some v => simp [h]
    | none => simp [Memory.read_write]
  · cases m.read i with
    | some v => simp [hj]
    | none => simp [Memory.read_write, hj]

/-- The booted bytes are written, and no written byte is lost. -/
theorem isSome_read_bootBytes (l : List Nat) (m : Memory) (j : Nat) :
    (Memory.read (l.foldl bootByte m) j).isSome = (decide (j ∈ l) || (m.read j).isSome) := by
  induction l generalizing m with
  | nil => simp
  | cons i l ih =>
    rw [List.foldl_cons, ih, isSome_read_bootByte]
    simp [Bool.or_left_comm, Bool.or_assoc]

/-- A run of written bytes can be read. -/
theorem Memory.isSome_readRun {m : Memory} (i n : Nat) (h : ∀ j, i ≤ j → j < i + n → (m.read j).isSome = true) :
    (m.readRun i n).isSome = true := by
  induction n generalizing i with
  | zero => rfl
  | succ n ih =>
    obtain ⟨b, hb⟩ := Option.isSome_iff_exists.mp (h i (Nat.le_refl i) (by omega))
    obtain ⟨bs, hbs⟩ := Option.isSome_iff_exists.mp (ih (i + 1) fun j h1 h2 => h j (by omega) (by omega))
    simp only [Memory.readRun, hb, hbs, Option.isSome_some]

/-- An operand place is written whole after its boot duty. -/
theorem written_bootPlace_self (s : State) {p : Place} (hp : p = .a ∨ p = .b ∨ p = .buf) :
    (s.bootPlace p).written p = true := by
  rcases hp with rfl | rfl | rfl
  · simp [State.written, State.operandA, State.bootPlace, wideOf_isSome]
  · simp [State.written, State.operandB, State.bootPlace, wideOf_isSome]
  · rw [State.written, State.operandBuf, State.bootPlace]
    refine Memory.isSome_readRun 0 Config.bufBytes fun j _ hj => ?_
    rw [Nat.zero_add] at hj
    simp only [isSome_read_bootBytes, List.mem_range.mpr hj, decide_true, Bool.true_or]

/-- The boot duty for A is not undone by that for B. -/
theorem written_bootPlace_b_a (s : State) : (s.bootPlace .b).written .a = s.written .a := by
  simp only [State.written, State.operandA, State.bootPlace]

/-- The boot duty for a place leaves the recorded fault. -/
theorem bootPlace_fault (s : State) (p : Place) : (s.bootPlace p).fault = s.fault := by
  cases p <;> simp only [State.bootPlace]

/-- The boot duty for a list of places leaves the recorded fault. -/
theorem bootPlaces_fault (l : List Place) (s : State) : (l.foldl State.bootPlace s).fault = s.fault := by
  induction l generalizing s with
  | nil => rfl
  | cons p l ih => exact (ih _).trans (bootPlace_fault s p)

/-- The boot duty for a command is that for its "reads" column. -/
theorem bootFor_of_isCommand {i : Instr} (hi : i.isCommand = true) (s : State) :
    s.bootFor i = (readsOf i).foldl State.bootPlace s := by
  cases i with
  | hrd => cases hi
  | _ => rfl

/-- The boot duty leaves the recorded fault. -/
theorem bootFor_fault (s : State) (i : Instr) : (s.bootFor i).fault = s.fault := by
  cases i with
  | hrd n =>
    simp only [State.bootFor]
    split
    · next r _ => cases r <;> rfl
    · rfl
  | _ => exact bootPlaces_fault _ s

/-- After the boot duty for a command every operand it reads is written whole (70_reset_and_hazards.md R282). -/
theorem written_bootFor {i : Instr} (hi : i.isCommand = true) (s : State) :
    ∀ p ∈ readsOf i, (s.bootFor i).written p = true := by
  rw [bootFor_of_isCommand hi]
  rcases exec_shape hi with ⟨hr, _⟩ | ⟨hr, _⟩ | ⟨hr, _⟩ <;>
    simp only [hr, List.foldl_cons, List.foldl_nil, List.forall_mem_cons, List.not_mem_nil,
      IsEmpty.forall_iff, implies_true, and_true, written_bootPlace_b_a]
  · exact written_bootPlace_self s (.inl rfl)
  · exact ⟨written_bootPlace_self s (.inl rfl), written_bootPlace_self _ (.inr (.inl rfl))⟩
  · exact written_bootPlace_self s (.inr (.inr rfl))

/-! ### The placement -/

/-- Eight bits that are an opcode are that command word (log entry 9). -/
theorem tableCode_command {c : Byte} {i : Instr} (hc : decodeCommand c = .instr i) :
    tableCode 8 c.toNat = .command c := by
  simp [tableCode, hc]

/-- 72 bits are a transaction: the header in bits 7:0, the data word above (log entry 9). -/
theorem tableCode_transaction (h : Byte) (d : Word) :
    tableCode 72 (h.toNat + 256 * d.toNat) = .transaction h d := by
  have hlt := h.isLt
  have hheader : BitVec.ofNat 8 (h.toNat + 256 * d.toNat) = h := by
    apply BitVec.eq_of_toNat_eq
    rw [BitVec.toNat_ofNat]
    omega
  have hdata : (h.toNat + 256 * d.toNat) / 256 = d.toNat := by omega
  simp [tableCode, hheader, hdata]

/-- A placed command word is in flight and due, after the boot duty for it. -/
theorem withFetchWord_command {c : Byte} {i : Instr} (hc : decodeCommand c = .instr i) (s : State) :
    s.withFetchWord 8 c.toNat = { s.bootFor i with pending := some c, status := statusBusy, wait := 0 } := by
  simp only [State.withFetchWord, State.placeTableWord, tableCode_command hc, State.place, decode, hc, Decoded.instr?]

/-- A placed transaction is the host's next event, after the boot duty for it, and a command in flight waits a step
longer. -/
theorem withFetchWord_transaction {h : Byte} {d : Word} {i : Instr} (hd : decodeTransaction h d = .instr i)
    (s : State) : s.withFetchWord 72 (h.toNat + 256 * d.toNat) = { s.bootFor i with
      host := .transaction h d :: (s.bootFor i).host
      wait := if (s.bootFor i).pending.isSome then (s.bootFor i).wait + 1 else (s.bootFor i).wait } := by
  simp only [State.withFetchWord, State.placeTableWord, tableCode_transaction, State.place, decode, hd, Decoded.instr?]

/-- The step on a placed transaction runs it in the booted state. -/
theorem step_withFetchWord_transaction {s : State} {h : Byte} {d : Word} {i : Instr} (hf : s.fault = none)
    (hd : decodeTransaction h d = .instr i) :
    step (s.withFetchWord 72 (h.toNat + 256 * d.toNat)) = exec i (s.bootFor i) := by
  have hboot := (bootFor_fault s i).trans hf
  rw [withFetchWord_transaction hd]
  generalize s.bootFor i = t at hboot ⊢
  cases hp : t.pending with
  | none => exact step_of_idle_transaction hboot hp rfl hd
  | some c => exact step_of_waiting_transaction hboot hp rfl rfl hd

/-- Settles O46: the placed command is due and its operands are written; the placed transaction is the next event. -/
theorem placedWordRunsNext : Obligations.PlacedWordRunsNext := by
  refine ⟨fun s c i hf hc => ?_, fun _ _ _ _ => step_withFetchWord_transaction⟩
  have hi := isCommand_of_decodeCommand hc
  rw [withFetchWord_command hc]
  refine ⟨step_of_due ((bootFor_fault s i).trans hf) rfl rfl hc, exec_of_written hi fun p hp => ?_⟩
  have hwritten := written_bootFor hi s p hp
  cases p <;> exact hwritten

end Sys2Proof.Machine
end

section
/-! PROOFS. The comparator (40_compare.md): the word comparison is the order of the naturals (R107), and the seven
commands write what it says to R (R100 to R106). -/

namespace Sys2Proof.Machine

/-! ### The word comparison -/

/-- The high words decide, and the low words where they are equal: `a = hi(a) * 2^64 + lo(a)` with `lo(a) < 2^64`
(10_state.md R21). -/
theorem lexLess_iff_toNat_lt (a b : Wide) : lexLess a b ↔ a.toNat < b.toNat := by
  simp only [lexLess, BitVec.lt_def, BitVec.toNat_eq, toNat_hiWord, toNat_loWord]
  omega

/-- The comparator's answer is the library's comparison of the two naturals (40_compare.md R107). -/
theorem compareWide_eq_compare (a b : Wide) : compareWide a b = compare a.toNat b.toNat := by
  simp only [compareWide, BitVec.lt_def, toNat_hiWord, toNat_loWord]
  symm
  split_ifs
  · rw [Nat.compare_eq_lt]; omega
  · rw [Nat.compare_eq_gt]; omega
  · rw [Nat.compare_eq_lt]; omega
  · rw [Nat.compare_eq_gt]; omega
  · rw [Nat.compare_eq_eq]; omega

/-- LESS is the order of the naturals. -/
theorem compareWide_eq_lt_iff (a b : Wide) : compareWide a b = .lt ↔ a.toNat < b.toNat := by
  rw [compareWide_eq_compare, Nat.compare_eq_lt]

/-- EQUAL is equality. -/
theorem compareWide_eq_eq_iff (a b : Wide) : compareWide a b = .eq ↔ a = b := by
  rw [compareWide_eq_compare, Nat.compare_eq_eq, BitVec.toNat_inj]

/-- GREATER is the order of the naturals, the other way round. -/
theorem compareWide_eq_gt_iff (a b : Wide) : compareWide a b = .gt ↔ b.toNat < a.toNat := by
  rw [compareWide_eq_compare, Nat.compare_eq_gt]

/-- LESS is the lexicographic order on `(hi, lo)`. -/
theorem compareWide_eq_lt_iff_lexLess (a b : Wide) : compareWide a b = .lt ↔ lexLess a b := by
  rw [compareWide_eq_lt_iff, lexLess_iff_toNat_lt]

/-- GREATER is the lexicographic order on `(hi, lo)`, the other way round. -/
theorem compareWide_eq_gt_iff_lexLess (a b : Wide) : compareWide a b = .gt ↔ lexLess b a := by
  rw [compareWide_eq_gt_iff, lexLess_iff_toNat_lt]

/-- The comparator is antisymmetric. -/
theorem compareWide_swap (a b : Wide) : compareWide b a = (compareWide a b).swap := by
  rw [compareWide_eq_compare, compareWide_eq_compare, Nat.compare_swap]

/-- LESS is transitive. -/
theorem compareWide_lt_trans {a b c : Wide} (hab : compareWide a b = .lt) (hbc : compareWide b c = .lt) :
    compareWide a c = .lt := by
  rw [compareWide_eq_lt_iff] at hab hbc ⊢
  exact hab.trans hbc

/-- Settles O8: the comparison is that of the naturals, whose laws it has. -/
theorem compareIsUnsignedNumericOrder : Obligations.CompareIsUnsignedNumericOrder :=
  fun a b _ => ⟨compareWide_eq_lt_iff a b, compareWide_eq_eq_iff a b, compareWide_eq_gt_iff a b,
    lexLess_iff_toNat_lt a b, compareWide_swap a b, compareWide_lt_trans⟩

/-! ### The commands -/

/-- A command that reads A and B and writes a value to R answers with that value in R and the rest of the tuple as it
was (30_encoding.md R92). -/
theorem onAB_okR_answersView {s : State} {a b v : Wide} {f : Wide → Wide → Wide} (ha : s.operandA = some a)
    (hb : s.operandB = some b) (hv : f a b = v) : AnswersView (onAB s fun a b => okR (f a b)) (s.view.wroteR v) :=
  ⟨s.complete (okR (f a b)), onAB_of_some ha hb _, hv ▸ s.view_complete_okR (f a b)⟩

/-- The pattern CMP writes (40_compare.md R100). -/
theorem orderPattern_compareWide (a b : Wide) :
    orderPattern (compareWide a b) = if lexLess a b then wideMax else if a = b then 0 else 1 := by
  simp only [← compareWide_eq_lt_iff_lexLess, ← compareWide_eq_eq_iff]
  cases compareWide a b <;> rfl

/-- Settles O6: the value in R is `orderPattern_compareWide`. -/
theorem cmpWritesThreeWayResult : Obligations.CmpWritesThreeWayResult :=
  ⟨rfl, fun _ a b ha hb => onAB_okR_answersView ha hb (orderPattern_compareWide a b)⟩

/-- The value of a predicate that asks for one answer of the comparator (40_compare.md R101, R103, R105). -/
theorem truthValue_beq {o p : Ordering} {P : Prop} [Decidable P] (h : o = p ↔ P) :
    truthValue (o == p) = if P then 1 else 0 := by
  simp only [truthValue, beq_iff_eq, h]

/-- The value of a predicate that asks for the other two answers (40_compare.md R102, R104, R106). -/
theorem truthValue_bne {o p : Ordering} {P : Prop} [Decidable P] (h : o = p ↔ P) :
    truthValue (o != p) = if P then 0 else 1 := by
  simp only [truthValue, bne_iff_ne, ne_eq, h, ite_not]

/-- Settles O7: each predicate asks for one answer of the comparator or for the other two. -/
theorem predicatesWriteOneOrZero : Obligations.PredicatesWriteOneOrZero := by
  refine ⟨⟨rfl, rfl, rfl, rfl, rfl, rfl⟩, fun s a b ha hb => ?_⟩
  have equal := compareWide_eq_eq_iff a b
  have less := compareWide_eq_lt_iff_lexLess a b
  have greater := compareWide_eq_gt_iff_lexLess a b
  exact ⟨onAB_okR_answersView ha hb (truthValue_beq equal), onAB_okR_answersView ha hb (truthValue_bne equal),
    onAB_okR_answersView ha hb (truthValue_beq less), onAB_okR_answersView ha hb (truthValue_bne greater),
    onAB_okR_answersView ha hb (truthValue_beq greater), onAB_okR_answersView ha hb (truthValue_bne less)⟩

end Sys2Proof.Machine
end

section
/-! PROOFS. The adder and subtractor (41_add_sub.md): the word-level forms are addition, subtraction and negation modulo
2^128 (R120, R122, R124 to R126), and the five commands write them to R. -/

namespace Sys2Proof.Machine

/-! ### The word-level algorithms -/

/-- Addition with the carry of the low word is addition: the low sum is below `lo(a)` exactly when it has wrapped
(41_add_sub.md R120). -/
theorem add128_eq_add (a b : Wide) : add128 a b = a + b := by
  have hcarry : loWord a + loWord b < loWord a ↔ 2 ^ 64 ≤ a.toNat % 2 ^ 64 + b.toNat % 2 ^ 64 := by
    rw [BitVec.lt_def, BitVec.toNat_add, toNat_loWord, toNat_loWord]
    omega
  apply BitVec.eq_of_toNat_eq
  have h1 : (1 : Word).toNat = 1 := rfl
  have h0 : (0 : Word).toNat = 0 := rfl
  simp only [add128, hcarry, toNat_joinWords, BitVec.toNat_add, toNat_hiWord, toNat_loWord]
  split_ifs
  · rw [h1]
    omega
  · rw [h0]
    omega

/-- The low word of 0. -/
@[simp] theorem loWord_zero : loWord 0 = 0 := rfl

/-- The high word of 0. -/
@[simp] theorem hiWord_zero : hiWord 0 = 0 := rfl

/-- The low word of 1. -/
@[simp] theorem loWord_one : loWord 1 = 1 := rfl

/-- The high word of 1. -/
@[simp] theorem hiWord_one : hiWord 1 = 0 := rfl

/-- INC is ADD of 1: the low word carries exactly when all its bits are set (41_add_sub.md R124). -/
theorem inc128_eq_add128_one (a : Wide) : inc128 a = add128 a 1 := by
  have hcarry : loWord a + 1 < loWord a ↔ loWord a = BitVec.allOnes 64 := by
    rw [BitVec.toNat_eq, BitVec.toNat_allOnes]
    bv_omega
  simp only [inc128, add128, loWord_one, hiWord_one, hcarry, add_zero]

/-- DEC is SUB of 1: the low word borrows exactly when it is 0 (41_add_sub.md R125). -/
theorem dec128_eq_sub128_one (a : Wide) : dec128 a = sub128 a 1 := by
  have hborrow : loWord a < 1 ↔ loWord a = 0 := by bv_omega
  simp only [dec128, sub128, loWord_one, hiWord_one, hborrow, sub_zero]

/-- NEG is SUB from 0: the low word borrows exactly when it is not 0 (41_add_sub.md R126). -/
theorem neg128_eq_zero_sub128 (a : Wide) : neg128 a = sub128 0 a := by
  have hborrow : 0 < loWord a ↔ loWord a ≠ 0 := by bv_omega
  simp only [neg128, sub128, loWord_zero, hiWord_zero, hborrow]
  split
  · rfl
  · rw [sub_zero]

/-- NEG is negation. -/
theorem neg128_eq_neg (a : Wide) : neg128 a = -a := by
  rw [neg128_eq_zero_sub128, sub128_eq_sub, zero_sub]

/-- The low word of a negation (41_add_sub.md R126). -/
theorem loWord_neg128 (a : Wide) : loWord (neg128 a) = 0 - loWord a := loWord_joinWords _ _

/-- The high word of a negation, with the borrow of the low word (41_add_sub.md R126, 90_conflicts.md C3). -/
theorem hiWord_neg128 (a : Wide) :
    hiWord (neg128 a) = if loWord a ≠ 0 then (0 - hiWord a) - 1 else 0 - hiWord a := hiWord_joinWords _ _

/-- With a borrow the high word of a negation is the complement of the high word (41_add_sub.md R126). -/
theorem hiWord_neg128_of_borrow {a : Wide} (h : loWord a ≠ 0) : hiWord (neg128 a) = ~~~ hiWord a := by
  rw [hiWord_neg128, if_pos h, zero_sub, BitVec.neg_eq_not_add]
  exact BitVec.add_sub_cancel _ _

/-! ### The values as naturals modulo 2^128 -/

/-- The sum (41_add_sub.md R121). -/
theorem add128_eq_ofNat (a b : Wide) : add128 a b = BitVec.ofNat 128 ((a.toNat + b.toNat) % 2 ^ 128) := by
  apply BitVec.eq_of_toNat_eq
  rw [add128_eq_add, BitVec.toNat_add, BitVec.toNat_ofNat, Nat.mod_mod]

/-- The difference (41_add_sub.md R123). -/
theorem sub128_eq_ofNat (a b : Wide) : sub128 a b = BitVec.ofNat 128 ((2 ^ 128 + a.toNat - b.toNat) % 2 ^ 128) := by
  have hb := b.isLt
  apply BitVec.eq_of_toNat_eq
  rw [sub128_eq_sub, BitVec.toNat_sub, BitVec.toNat_ofNat, Nat.mod_mod, Nat.sub_add_comm hb.le]

/-! ### The commands -/

/-- A command that reads A alone and writes a value to R answers with that value in R and the rest of the tuple as it
was (30_encoding.md R92). -/
theorem onA_okR_answersView {s : State} {a v : Wide} {f : Wide → Wide} (ha : s.operandA = some a) (hv : f a = v) :
    AnswersView (onA s fun a => okR (f a)) (s.view.wroteR v) :=
  ⟨s.complete (okR (f a)), onA_of_some ha _, hv ▸ s.view_complete_okR (f a)⟩

/-- Settles O9: the values in R are `add128_eq_ofNat` and `sub128_eq_ofNat`. -/
theorem addSubWrapModulo : Obligations.AddSubWrapModulo :=
  ⟨⟨rfl, rfl⟩, fun _ a b ha hb =>
    ⟨onAB_okR_answersView ha hb (add128_eq_ofNat a b), onAB_okR_answersView ha hb (sub128_eq_ofNat a b)⟩⟩

/-- Settles O10: INC is ADD of 1, DEC is SUB of 1 and NEG is SUB from 0. -/
theorem incDecNegValues : Obligations.IncDecNegValues :=
  ⟨⟨rfl, rfl, rfl⟩, fun _ a ha =>
    ⟨onA_okR_answersView ha ((inc128_eq_add128_one a).trans (add128_eq_ofNat a 1)),
      onA_okR_answersView ha ((dec128_eq_sub128_one a).trans (sub128_eq_ofNat a 1)),
      onA_okR_answersView ha ((neg128_eq_zero_sub128 a).trans (sub128_eq_ofNat 0 a))⟩⟩

/-- Settles O11, by the two words of `neg128`. -/
theorem negBorrowsWhenLowWordNonzero : Obligations.NegBorrowsWhenLowWordNonzero :=
  ⟨rfl, fun _ a ha => ⟨neg128 a, onA_okR_answersView ha rfl, loWord_neg128 a, hiWord_neg128 a,
    hiWord_neg128_of_borrow⟩⟩

/-- Settles O12: the word-level operations are those of `BitVec 128`, whose laws they have. -/
theorem adderLaws : Obligations.AdderLaws := by
  intro a b c
  simp only [add128_eq_add, sub128_eq_sub, neg128_eq_neg]
  exact ⟨BitVec.add_zero a, BitVec.add_comm a b, BitVec.add_assoc a b c, BitVec.sub_add_cancel a b,
    BitVec.add_right_neg a⟩

end Sys2Proof.Machine
end

section
/-! PROOFS. The multiplier (42_multiply.md): the word-level form is multiplication modulo 2^128 (R140), MUL writes the
product to R (R141), and the laws are those of `BitVec 128` (R142). -/

namespace Sys2Proof.Machine

/-! ### The word-level algorithm -/

/-- The exact product of the low words is the product of the naturals: 64 bits by 64 bits fit in 128
(42_multiply.md R140). -/
theorem toNat_lowProduct (x y : Word) :
    (x.setWidth 128 * y.setWidth 128 : Wide).toNat = x.toNat * y.toNat := by
  have fits : x.toNat * y.toNat < 2 ^ 128 := BitVec.toNat_mul_toNat_lt
  rw [BitVec.toNat_mul, BitVec.toNat_setWidth_of_le (by decide), BitVec.toNat_setWidth_of_le (by decide),
    Nat.mod_eq_of_lt fits]

/-- A product in terms of the words: the product of the high words has the weight 2^128, the cross terms have the
weight 2^64 (42_multiply.md R140). -/
theorem toNat_mul_toNat_words (a b : Wide) :
    a.toNat * b.toNat = 2 ^ 128 * ((hiWord a).toNat * (hiWord b).toNat) +
      2 ^ 64 * ((hiWord a).toNat * (loWord b).toNat + (loWord a).toNat * (hiWord b).toNat) +
      (loWord a).toNat * (loWord b).toNat := by
  conv_lhs => rw [← joinWords_words a, ← joinWords_words b, toNat_joinWords, toNat_joinWords]
  ring

/-- Multiplication by the low product and the truncated cross terms is multiplication: the product of the high words
is a multiple of 2^128 (42_multiply.md R140). -/
theorem mul128_eq_mul (a b : Wide) : mul128 a b = a * b := by
  apply BitVec.eq_of_toNat_eq
  simp only [mul128, toNat_joinWords, BitVec.toNat_add, toNat_hiWord (_ * _), toNat_loWord (_ * _), toNat_lowProduct]
  simp only [BitVec.toNat_mul, toNat_mul_toNat_words a b]
  omega

/-- The product as a natural modulo 2^128 (42_multiply.md R141). -/
theorem mul128_eq_ofNat (a b : Wide) : mul128 a b = BitVec.ofNat 128 ((a.toNat * b.toNat) % 2 ^ 128) := by
  apply BitVec.eq_of_toNat_eq
  rw [mul128_eq_mul, BitVec.toNat_mul, BitVec.toNat_ofNat, Nat.mod_mod]

/-! ### The command and the laws -/

/-- Settles O13: the value in R is `mul128_eq_ofNat`. -/
theorem mulKeepsLowHalf : Obligations.MulKeepsLowHalf :=
  ⟨rfl, fun _ a b ha hb => onAB_okR_answersView ha hb (mul128_eq_ofNat a b)⟩

/-- Settles O14: the word-level operations are those of `BitVec 128`, whose laws they have. -/
theorem multiplierLaws : Obligations.MultiplierLaws := by
  intro a b c
  simp only [mul128_eq_mul, add128_eq_add]
  exact ⟨BitVec.mul_comm a b, BitVec.mul_assoc a b c, BitVec.mul_one a, BitVec.mul_zero, BitVec.mul_add⟩

end Sys2Proof.Machine
end

section
/-! PROOFS. The bitwise unit and the barrel shifter (43_bitwise_shift.md): the word-level forms are the operations of
128-bit values (R150 to R153, R155, R157), the six commands write them to R, and the shifter has its laws (R160). -/

namespace Sys2Proof.Machine

/-! ### The bitwise unit -/

/-- The word-wise and is the and of the values (43_bitwise_shift.md R150). -/
theorem and128_eq_and (a b : Wide) : and128 a b = a &&& b := by
  conv_rhs => rw [← joinWords_words a, ← joinWords_words b]
  exact BitVec.and_append.symm

/-- The word-wise or is the or of the values (43_bitwise_shift.md R151). -/
theorem or128_eq_or (a b : Wide) : or128 a b = a ||| b := by
  conv_rhs => rw [← joinWords_words a, ← joinWords_words b]
  exact BitVec.or_append.symm

/-- The word-wise exclusive or is the exclusive or of the values (43_bitwise_shift.md R152). -/
theorem xor128_eq_xor (a b : Wide) : xor128 a b = a ^^^ b := by
  conv_rhs => rw [← joinWords_words a, ← joinWords_words b]
  exact BitVec.xor_append.symm

/-- The word-wise complement is the distance to the largest value (43_bitwise_shift.md R153). -/
theorem not128_eq_wideMax_sub (a : Wide) : not128 a = wideMax - a := by
  conv_rhs => rw [BitVec.allOnes_sub_eq_not, ← joinWords_words a]
  exact BitVec.not_append.symm

/-- Settles O15: the word-level operations are those of `BitVec 128`. -/
theorem bitwiseWordByWord : Obligations.BitwiseWordByWord :=
  ⟨⟨rfl, rfl, rfl, rfl⟩,
    fun _ a b ha hb => ⟨onAB_okR_answersView ha hb (and128_eq_and a b),
      onAB_okR_answersView ha hb (or128_eq_or a b), onAB_okR_answersView ha hb (xor128_eq_xor a b)⟩,
    fun _ a ha => onA_okR_answersView ha (not128_eq_wideMax_sub a),
    fun a b => ⟨(and128_eq_and a b).symm, (or128_eq_or a b).symm, (xor128_eq_xor a b).symm,
      (not128_eq_wideMax_sub a).symm⟩⟩

/-! ### The shifts as naturals -/

/-- A left shift is a product with a power of 2, modulo 2^128 (43_bitwise_shift.md R155). -/
theorem toNat_shl128 (a : Wide) (n : Nat) : (shl128 a n).toNat = a.toNat * 2 ^ n % 2 ^ 128 := by
  rw [shl128_eq_shiftLeft, BitVec.toNat_shiftLeft, Nat.shiftLeft_eq]

/-- A right shift is a quotient by a power of 2 (43_bitwise_shift.md R157). -/
theorem toNat_shr128 (a : Wide) (n : Nat) : (shr128 a n).toNat = a.toNat / 2 ^ n := by
  rw [shr128_eq_ushiftRight, BitVec.toNat_ushiftRight, Nat.shiftRight_eq_div_pow]

/-- Settles O16: the values in R are `toNat_shl128` and `toNat_shr128`. -/
theorem shiftsByWholeOperandB : Obligations.ShiftsByWholeOperandB := by
  refine ⟨⟨rfl, rfl⟩, fun _ a b ha hb => ⟨onAB_okR_answersView ha hb ?_, onAB_okR_answersView ha hb ?_⟩⟩
  · rw [← toNat_shl128, BitVec.ofNat_toNat, BitVec.setWidth_eq]
  · rw [← toNat_shr128, BitVec.ofNat_toNat, BitVec.setWidth_eq]

/-- A value whose high word is not 0 is at least 128. -/
theorem le_toNat_of_hiWord_ne_zero {b : Wide} (h : hiWord b ≠ 0) : 128 ≤ b.toNat := by
  by_contra hlt
  refine h (BitVec.eq_of_toNat_eq ?_)
  rw [toNat_hiWord]
  exact Nat.div_eq_of_lt (by omega)

/-- Settles O17: an amount from 128 on shifts every bit out, and a high word that is not 0 makes such an amount. -/
theorem shiftAmountsFrom128GiveZero : Obligations.ShiftAmountsFrom128GiveZero := by
  intro s a b ha hb
  refine ⟨⟨onAB_okR_answersView ha hb rfl, onAB_okR_answersView ha hb rfl⟩, fun hlarge => ?_⟩
  have hn : 128 ≤ b.toNat := hlarge.elim id le_toNat_of_hiWord_ne_zero
  exact ⟨onAB_okR_answersView ha hb ((shl128_eq_shiftLeft a _).trans (BitVec.shiftLeft_eq_zero hn)),
    onAB_okR_answersView ha hb ((shr128_eq_ushiftRight a _).trans (BitVec.ushiftRight_eq_zero hn))⟩

/-! ### The lowest set bit -/

/-- The search for the lowest set bit of a word answers at most 64. -/
theorem lowestSetAmongTop_le (w : Word) (k : Nat) : lowestSetAmongTop w k ≤ 64 := by
  induction k with
  | zero => exact Nat.zero_le 64
  | succ k ih =>
    unfold lowestSetAmongTop
    split
    · exact Nat.sub_le 64 k
    · exact ih

/-- Among the `k` highest bits of a word, those below the lowest set one are clear. -/
theorem getLsbD_of_lt_lowestSetAmongTop {w : Word} {i k : Nat} (hk : k ≤ 64) (hik : 64 ≤ i + k)
    (hi : i + 1 < lowestSetAmongTop w k) : w.getLsbD i = false := by
  induction k with
  | zero => exact absurd hi (Nat.not_lt_zero _)
  | succ k ih =>
    unfold lowestSetAmongTop at hi
    split at hi
    · omega
    · next hclear =>
      rcases eq_or_ne i (63 - k) with rfl | hne
      · exact Bool.eq_false_of_not_eq_true hclear
      · exact ih (by omega) (by omega) hi

/-- The bits of a word below its lowest set one are clear (44_bitlen.md R173). -/
theorem getLsbD_of_lt_lowidx64 {w : Word} {i : Nat} (hi : i + 1 < lowidx64 w) : w.getLsbD i = false :=
  getLsbD_of_lt_lowestSetAmongTop le_rfl (Nat.le_add_left 64 i) hi

/-- The bits of a value below its lowest set one are clear (44_bitlen.md R173). -/
theorem getLsbD_of_lt_lowidx {a : Wide} {i : Nat} (hi : i + 1 < lowidx a) : a.getLsbD i = false := by
  rw [← joinWords_words a, getLsbD_joinWords]
  unfold lowidx at hi
  split_ifs at hi with hlo hhi
  · have hle : lowidx64 (loWord a) ≤ 64 := lowestSetAmongTop_le _ _
    rw [if_pos (by omega)]
    exact getLsbD_of_lt_lowidx64 hi
  · split_ifs
    · rw [not_not.mp hlo]
      exact BitVec.getLsbD_zero
    · exact getLsbD_of_lt_lowidx64 (by omega)
  · exact absurd hi (Nat.not_lt_zero _)

/-! ### The laws of the shifter -/

/-- A left shift that loses no set bit is undone (43_bitwise_shift.md R160, 90_conflicts.md C7). -/
theorem shr128_shl128_of_le {a : Wide} {n : Nat} (h : n ≤ 128 - bitlen a) : shr128 (shl128 a n) n = a := by
  have hsize : a.toNat.size ≤ 128 := Nat.size_le.mpr a.isLt
  rw [bitlen_eq_size] at h
  have hfit : a.toNat * 2 ^ n < 2 ^ 128 :=
    calc a.toNat * 2 ^ n < 2 ^ a.toNat.size * 2 ^ n :=
          Nat.mul_lt_mul_of_pos_right (Nat.lt_size_self _) (Nat.two_pow_pos n)
      _ = 2 ^ (a.toNat.size + n) := (pow_add ..).symm
      _ ≤ 2 ^ 128 := Nat.pow_le_pow_right (by decide) (by omega)
  apply BitVec.eq_of_toNat_eq
  rw [toNat_shr128, toNat_shl128, Nat.mod_eq_of_lt hfit, Nat.mul_div_cancel _ (Nat.two_pow_pos n)]

/-- A right shift that loses no set bit is undone. -/
theorem shl128_shr128_of_clear {a : Wide} {n : Nat} (h : ∀ i < n, a.getLsbD i = false) :
    shl128 (shr128 a n) n = a := by
  rw [shl128_eq_shiftLeft, shr128_eq_ushiftRight]
  apply BitVec.eq_of_getLsbD_eq
  intro i hi
  rw [BitVec.getLsbD_shiftLeft, BitVec.getLsbD_ushiftRight]
  by_cases hin : i < n
  · simp [hin, h i hin]
  · simp [hi, hin, Nat.add_sub_of_le (not_lt.mp hin)]

/-- Two left shifts add their amounts (43_bitwise_shift.md R160). -/
theorem shl128_shl128 (a : Wide) (m n : Nat) : shl128 (shl128 a m) n = shl128 a (m + n) := by
  simp only [shl128_eq_shiftLeft, BitVec.shiftLeft_add]

/-- Two right shifts add their amounts (43_bitwise_shift.md R160). -/
theorem shr128_shr128 (a : Wide) (m n : Nat) : shr128 (shr128 a m) n = shr128 a (m + n) := by
  simp only [shr128_eq_ushiftRight, BitVec.shiftRight_add]

/-- Settles O18: the bound of each of the first two laws says that no set bit is shifted out. -/
theorem shifterLaws : Obligations.ShifterLaws := by
  refine fun a m n => ⟨shr128_shl128_of_le, fun hbound => shl128_shr128_of_clear fun i hi => ?_,
    shl128_shl128 a m n, shr128_shr128 a m n⟩
  rcases hbound with hlow | rfl
  · exact getLsbD_of_lt_lowidx (by omega)
  · exact BitVec.getLsbD_zero

end Sys2Proof.Machine
end

section
/-! PROOFS. The bit-length and popcount unit (44_bitlen.md): MSBIDX writes the bit length (R170), LSBIDX the lowest set
index (R171) and POPCNT the number of set bits (R172). -/

namespace Sys2Proof.Machine

/-! ### The bit length -/

/-- The size of a number that is not 0 is one more than the floor of its logarithm (00_scope.md R15). -/
theorem size_eq_log2_add_one {n : Nat} (h : n ≠ 0) : n.size = n.log2 + 1 :=
  eq_of_forall_ge_iff fun _ => Nat.size_le.trans (Nat.log2_lt h).symm

/-- The word-level bit length is the one of 00_scope.md R15. -/
theorem bitlen_eq_log2 (a : Wide) : bitlen a = if a = 0 then 0 else Nat.log2 a.toNat + 1 := by
  rw [bitlen_eq_size]
  split
  · next hzero => rw [hzero]; exact Nat.size_zero
  · next hne => exact size_eq_log2_add_one fun h => hne (BitVec.eq_of_toNat_eq h)

/-- Settles O19: the value in R is `bitlen_eq_log2`. -/
theorem msbidxWritesBitLength : Obligations.MsbidxWritesBitLength :=
  ⟨rfl, fun _ a ha => onA_okR_answersView ha (congrArg countValue (bitlen_eq_log2 a))⟩

/-! ### The lowest set bit -/

/-- If one of the `k` highest bits of a word is set, the search for the lowest of them finds a set bit. -/
theorem getLsbD_lowestSetAmongTop {w : Word} {i k : Nat} (hk : k ≤ 64) (hik : 64 ≤ i + k) (hi : w.getLsbD i = true) :
    0 < lowestSetAmongTop w k ∧ w.getLsbD (lowestSetAmongTop w k - 1) = true := by
  have hlt : i < 64 := BitVec.lt_of_getLsbD hi
  induction k with
  | zero => omega
  | succ k ih =>
    unfold lowestSetAmongTop
    split
    · next hset => exact ⟨by omega, by rwa [Nat.sub_right_comm]⟩
    · next hclear =>
      have hne : i ≠ 63 - k := fun h => hclear (h ▸ hi)
      exact ih (by omega) (by omega)

/-- A word that is not 0 has its lowest set index at a set bit (44_bitlen.md R173). -/
theorem getLsbD_lowidx64 {w : Word} (h : w ≠ 0) : 0 < lowidx64 w ∧ w.getLsbD (lowidx64 w - 1) = true := by
  obtain ⟨i, hi⟩ : ∃ i, w.getLsbD i = true := by
    by_contra! hclear
    exact h (BitVec.eq_of_getLsbD_eq fun i _ => by simpa using hclear i)
  exact getLsbD_lowestSetAmongTop le_rfl (Nat.le_add_left 64 i) hi

/-- A value that is not 0 has its lowest set index at a set bit (44_bitlen.md R173). -/
theorem getLsbD_lowidx {a : Wide} (h : a ≠ 0) : 0 < lowidx a ∧ a.getLsbD (lowidx a - 1) = true := by
  unfold lowidx
  split_ifs with hlo hhi
  · obtain ⟨hpos, hset⟩ := getLsbD_lowidx64 hlo
    rw [getLsbD_loWord, Bool.and_eq_true] at hset
    exact ⟨hpos, hset.2⟩
  · obtain ⟨hpos, hset⟩ := getLsbD_lowidx64 hhi
    rw [getLsbD_hiWord, Bool.and_eq_true, ← Nat.add_sub_assoc hpos] at hset
    exact ⟨Nat.add_pos_left (by decide) _, hset.2⟩
  · exact absurd (wide_ext (not_not.mp hhi) (not_not.mp hlo)) h

/-- Settles O20, with the lowest set index as `k`: the bit there is set (`getLsbD_lowidx`) and the bits below are clear
(`getLsbD_of_lt_lowidx`). -/
theorem lsbidxWritesLowestSetIndex : Obligations.LsbidxWritesLowestSetIndex := by
  refine ⟨rfl, fun s a ha => ⟨lowidx a, onA_okR_answersView ha rfl, fun hzero => by rw [hzero]; rfl, fun hne => ?_⟩⟩
  obtain ⟨hpos, hset⟩ := getLsbD_lowidx hne
  have hlt : lowidx a - 1 < 128 := BitVec.lt_of_getLsbD hset
  exact ⟨hpos, by omega, hset, fun j hj => getLsbD_of_lt_lowidx (by omega)⟩

/-! ### The number of set bits -/

/-- Counting the set bits below `k` adds up the bits below `k` (44_bitlen.md R172). -/
theorem setBitsBelow_eq_sum (a : Wide) (k : Nat) : setBitsBelow a k = ∑ i ∈ Finset.range k, (a.getLsbD i).toNat := by
  induction k with
  | zero => rfl
  | succ k ih => rw [setBitsBelow, Finset.sum_range_succ, ih]

/-- The number of set bits of a value is the sum of its words' counts (44_bitlen.md R172). -/
theorem popcount128_eq_sum_words (a : Wide) :
    popcount128 a = (∑ i ∈ Finset.range 64, ((hiWord a).getLsbD i).toNat) +
      ∑ i ∈ Finset.range 64, ((loWord a).getLsbD i).toNat := by
  have hlo : ∀ i ∈ Finset.range 64, (a.getLsbD i).toNat = ((loWord a).getLsbD i).toNat := fun i hi => by
    rw [getLsbD_loWord, decide_eq_true (Finset.mem_range.mp hi), Bool.true_and]
  have hhi : ∀ i ∈ Finset.range 64, (a.getLsbD (64 + i)).toNat = ((hiWord a).getLsbD i).toNat := fun i hi => by
    rw [getLsbD_hiWord, decide_eq_true (Finset.mem_range.mp hi), Bool.true_and]
  rw [popcount128, setBitsBelow_eq_sum, Finset.sum_range_add _ 64 64, Finset.sum_congr rfl hlo,
    Finset.sum_congr rfl hhi, Nat.add_comm]

/-- Settles O21: the value in R is `setBitsBelow_eq_sum`, the sum of the counts `popcount128_eq_sum_words`. -/
theorem popcntWritesNumberOfSetBits : Obligations.PopcntWritesNumberOfSetBits :=
  ⟨rfl, fun _ a ha => ⟨onA_okR_answersView ha (congrArg countValue (setBitsBelow_eq_sum a 128)),
    popcount128_eq_sum_words a⟩⟩

end Sys2Proof.Machine
end

section
/-! PROOFS. The long-division engine (45_divide.md): the loop is exact division in at most 128 iterations (R182 to
R184), and DIVMOD writes its quotient and remainder or fails with DIVZ (R180, R181). -/

namespace Sys2Proof.Machine

/-! ### The result of the loop -/

/-- The two results of the division loop as values (45_divide.md R183). -/
theorem divloop_eq_ofNat (n d : Wide) (hd : d ≠ 0) :
    divloop n d = (BitVec.ofNat 128 (n.toNat / d.toNat), BitVec.ofNat 128 (n.toNat % d.toNat)) := by
  refine Prod.ext ?_ (divloop_snd n d hd)
  rw [← (toNat_divloop n d hd).1, BitVec.ofNat_toNat, BitVec.setWidth_eq]

/-! ### The number of iterations -/

/-- A value that is not 0 is a positive natural. -/
theorem toNat_pos_of_ne_zero {a : Wide} (h : a ≠ 0) : 0 < a.toNat :=
  Nat.pos_of_ne_zero fun e => h (BitVec.eq_of_toNat_eq e)

/-- Only 0 has the bit length 0 (00_scope.md R15). -/
theorem bitlen_pos {a : Wide} (h : a ≠ 0) : 0 < bitlen a := by
  rw [bitlen_eq_size]
  exact Nat.size_pos.mpr (toNat_pos_of_ne_zero h)

/-- A bit length is at most 128 (00_scope.md R15). -/
theorem bitlen_le (a : Wide) : bitlen a ≤ 128 := by
  rw [bitlen_eq_size]
  exact Nat.size_le.mpr a.isLt

/-- Only 1 has the bit length 1 (00_scope.md R15). -/
theorem bitlen_eq_one_iff {a : Wide} : bitlen a = 1 ↔ a = 1 := by
  refine ⟨fun h => BitVec.eq_of_toNat_eq ?_, fun h => h ▸ rfl⟩
  rw [bitlen_eq_size] at h
  have hlt : a.toNat < 2 ^ 1 := Nat.size_le.mp h.le
  have hpos : 0 < a.toNat := Nat.size_pos.mp (by omega)
  change a.toNat = 1
  omega

/-- Step 1 answers without an iteration when the dividend is below the divisor (45_divide.md R182, R184). -/
theorem divIterations_of_lt {n d : Wide} (h : n < d) : divIterations n d = 0 := if_pos h

/-- Else the loop makes one iteration more than the shift distance (45_divide.md R182, R184). -/
theorem divIterations_of_le {n d : Wide} (h : d ≤ n) : divIterations n d = bitlen n - bitlen d + 1 :=
  if_neg (BitVec.not_lt.mpr h)

/-- The engine runs the loop when the divisor is not above the dividend (45_divide.md R182). -/
theorem divEngine_of_le {n d : Wide} (h : d ≤ n) :
    divEngine n d = some (divRun (divIterations n d - 1) (divStart n d)) := by
  rw [divIterations_of_le h, Nat.add_sub_cancel]
  exact if_neg (BitVec.not_lt.mpr h)

/-- The bound on the iterations (45_divide.md R184). -/
theorem divIterations_le (n d : Wide) (hd : d ≠ 0) : divIterations n d ≤ Config.divIterMax := by
  have hpos := bitlen_pos hd
  have hmax := bitlen_le n
  change divIterations n d ≤ 128
  by_cases hlt : n < d
  · rw [divIterations_of_lt hlt]
    exact Nat.zero_le 128
  · rw [divIterations_of_le (BitVec.not_lt.mp hlt)]
    omega

/-- The bound is met by the longest dividends and the shortest divisor (45_divide.md R184). -/
theorem divIterations_eq_max_iff (n d : Wide) (hd : d ≠ 0) :
    divIterations n d = 128 ↔ bitlen n = 128 ∧ d = 1 := by
  have hpos := bitlen_pos hd
  have hmax := bitlen_le n
  rw [← bitlen_eq_one_iff]
  by_cases hlt : n < d
  · have hmono : bitlen n ≤ bitlen d := by
      rw [bitlen_eq_size, bitlen_eq_size]
      exact Nat.size_le_size (BitVec.le_of_lt hlt)
    rw [divIterations_of_lt hlt]
    omega
  · rw [divIterations_of_le (BitVec.not_lt.mp hlt)]
    omega

/-- A run from a shift counter of `k` is `k` iterations that go on to the next, and a last test (45_divide.md R182). -/
theorem divRun_eq_iterate (k : Nat) (w : DivWork) :
    divRun k w = divTest ((fun x => divAdvance (divTest x))^[k] w) := by
  induction k generalizing w with
  | zero => rfl
  | succ k ih => rw [Function.iterate_succ_apply, ← ih, divRun]

/-- Settles O23: the values are `divloop_eq_ofNat`, the count is one more than the difference of the bit lengths. -/
theorem divisionLoopIsExactDivision : Obligations.DivisionLoopIsExactDivision :=
  fun n d hd => ⟨divloop_eq_ofNat n d hd, divIterations_le n d hd, divIterations_eq_max_iff n d hd,
    fun hlt => ⟨divIterations_of_lt hlt, if_pos hlt⟩,
    fun hle => ⟨divIterations_of_le hle ▸ Nat.le_add_left 1 _, divEngine_of_le hle⟩,
    divRun_eq_iterate⟩

/-! ### DIVMOD -/

/-- A command that reads A and B answers with the tuple of its completion (30_encoding.md R92). -/
theorem onAB_answersView {s : State} {a b : Wide} (ha : s.operandA = some a) (hb : s.operandB = some b)
    (f : Wide → Wide → CommandOutcome) : AnswersView (onAB s f) (s.complete (f a b)).view :=
  ⟨_, onAB_of_some ha hb f, rfl⟩

/-- DIVMOD by 0 answers with the failure DIVZ (45_divide.md R181). -/
theorem execDivmod_of_zero {s : State} {a : Wide} (ha : s.operandA = some a) (hb : s.operandB = some 0) :
    AnswersView (execDivmod s) (s.view.failed 0x04) :=
  onAB_answersView ha hb _

/-- DIVMOD by another divisor answers with the results of the loop in R and R2 (45_divide.md R180). -/
theorem execDivmod_of_ne_zero {s : State} {a b : Wide} (ha : s.operandA = some a) (hb : s.operandB = some b)
    (h0 : b ≠ 0) : AnswersView (execDivmod s) (s.view.wroteBoth (divloop a b).1 (divloop a b).2) := by
  have h := onAB_answersView ha hb fun a b => if b = 0 then .fail .divz else divOutcome a b
  rwa [if_neg h0, State.view_complete_division] at h

/-- Settles O22: the results of the loop are the quotient and the remainder of the naturals (`toNat_divloop`). -/
theorem divmodWritesQuotientAndRemainder : Obligations.DivmodWritesQuotientAndRemainder := by
  refine ⟨rfl, fun s a b ha hb => ⟨fun h0 => execDivmod_of_zero ha (h0 ▸ hb), fun h0 => ?_⟩⟩
  obtain ⟨hquot, hrem⟩ := toNat_divloop a b h0
  refine ⟨_, _, execDivmod_of_ne_zero ha hb h0, rfl, ?_, ?_⟩
  · rw [hquot, hrem, Nat.div_add_mod']
  · rw [hrem]
    exact Nat.mod_lt _ (toNat_pos_of_ne_zero h0)

end Sys2Proof.Machine
end

section
/-! PROOFS. The radix-convert divider (46_radix.md R200 to R202): RDIV divides by a valid radix or
fails with BADRADIX, and the division by radix 16 masks and shifts. -/

namespace Sys2Proof.Machine

/-- The check of the radix (46_radix.md R201). -/
theorem radixValid_iff (b : Wide) : radixValid b = true ↔ 2 ≤ b.toNat ∧ b.toNat ≤ 64 := by
  rw [radixValid, Bool.and_eq_true, decide_eq_true_iff, decide_eq_true_iff]

/-- The check of the radix on its two words (46_radix.md R201). -/
theorem radixValid_iff_words (b : Wide) :
    radixValid b = true ↔ hiWord b = 0 ∧ 2 ≤ (loWord b).toNat ∧ (loWord b).toNat ≤ 64 := by
  have hzero : (0 : Word).toNat = 0 := rfl
  rw [radixValid_iff, BitVec.toNat_eq, hzero, toNat_hiWord, toNat_loWord]
  omega

/-- RDIV by a valid radix answers with the results of the loop in R and R2 (46_radix.md R200). -/
theorem execRdiv_of_valid {s : State} {a b : Wide} (ha : s.operandA = some a) (hb : s.operandB = some b)
    (hv : radixValid b = true) : AnswersView (execRdiv s) (s.view.wroteBoth (divloop a b).1 (divloop a b).2) := by
  have h := onAB_answersView ha hb fun a b => if radixValid b then divOutcome a b else .fail .badradix
  rwa [if_pos hv, State.view_complete_division] at h

/-- RDIV by any other value answers with the failure BADRADIX (46_radix.md R201). -/
theorem execRdiv_of_invalid {s : State} {a b : Wide} (ha : s.operandA = some a) (hb : s.operandB = some b)
    (hv : ¬ radixValid b = true) : AnswersView (execRdiv s) (s.view.failed 0x08) := by
  have h := onAB_answersView ha hb fun a b => if radixValid b then divOutcome a b else .fail .badradix
  rwa [if_neg hv] at h

/-- Settles O24: a valid radix is not 0, so that the loop is exact division (`divloop_eq_ofNat`). -/
theorem rdivDividesByValidRadix : Obligations.RdivDividesByValidRadix := by
  refine ⟨rfl, radixValid_iff_words, fun s a b ha hb => ⟨fun hvalid => ?_, fun hinvalid => ?_⟩⟩
  · have h0 : b ≠ 0 := fun h => by
      rw [h] at hvalid
      exact absurd hvalid.1 (by decide)
    have h := execRdiv_of_valid ha hb ((radixValid_iff b).mpr hvalid)
    rwa [divloop_eq_ofNat a b h0] at h
  · exact execRdiv_of_invalid ha hb fun h => hinvalid ((radixValid_iff b).mp h)

/-- Settles O25: dividing by 2^4 drops the low 4 bits, and the remainder is those bits. -/
theorem radixSixteenIsMaskAndShift : Obligations.RadixSixteenIsMaskAndShift := by
  intro a
  obtain ⟨hquot, hrem⟩ := toNat_divloop a 16 (by decide)
  refine Prod.ext (BitVec.eq_of_toNat_eq ?_) (BitVec.eq_of_toNat_eq ?_)
  · rw [hquot, toNat_shr128]
    rfl
  · rw [hrem, and128_eq_and, BitVec.toNat_and]
    exact (Nat.and_two_pow_sub_one_eq_mod a.toNat 4).symm

end Sys2Proof.Machine
end

section
/-! PROOFS. The digit alphabet of the host's text procedures (46_radix.md R210, R211): the digit value of each symbol,
and that it inverts the alphabet for the digits of a radix. -/

namespace Sys2Proof.Machine

/-! ### The digit value of a character, by its range -/

/-- The range of the decimal digits (46_radix.md R210). -/
theorem isDecimalCode_iff (c : Byte) : isDecimalCode c = true ↔ 0x30 ≤ c.toNat ∧ c.toNat ≤ 0x39 := by
  rw [isDecimalCode, Bool.and_eq_true, decide_eq_true_iff, decide_eq_true_iff]

/-- The range of the uppercase letters (46_radix.md R210). -/
theorem isUpperCode_iff (c : Byte) : isUpperCode c = true ↔ 0x41 ≤ c.toNat ∧ c.toNat ≤ 0x5A := by
  rw [isUpperCode, Bool.and_eq_true, decide_eq_true_iff, decide_eq_true_iff]

/-- The range of the lowercase letters (46_radix.md R210). -/
theorem isLowerCode_iff (c : Byte) : isLowerCode c = true ↔ 0x61 ≤ c.toNat ∧ c.toNat ≤ 0x7A := by
  rw [isLowerCode, Bool.and_eq_true, decide_eq_true_iff, decide_eq_true_iff]

/-- A decimal digit has its own value (46_radix.md R211). -/
theorem digitValue_decimal (p : HostParams) (r : Nat) {d : Nat} (hd : d < 10) :
    digitValue p (BitVec.ofNat 8 (0x30 + d)) r = d := by
  have hcode : (BitVec.ofNat 8 (0x30 + d)).toNat = 0x30 + d := Nat.mod_eq_of_lt (by omega)
  have hdec : isDecimalCode (BitVec.ofNat 8 (0x30 + d)) = true := by rw [isDecimalCode_iff, hcode]; omega
  rw [digitValue, if_pos hdec, hcode, Nat.add_sub_cancel_left]

/-- An uppercase letter has a value from 10 on (46_radix.md R211). -/
theorem digitValue_upper (p : HostParams) (r : Nat) {d : Nat} (hd : d < 26) :
    digitValue p (BitVec.ofNat 8 (0x41 + d)) r = 10 + d := by
  have hcode : (BitVec.ofNat 8 (0x41 + d)).toNat = 0x41 + d := Nat.mod_eq_of_lt (by omega)
  have hdec : ¬ isDecimalCode (BitVec.ofNat 8 (0x41 + d)) = true := by rw [isDecimalCode_iff, hcode]; omega
  have hup : isUpperCode (BitVec.ofNat 8 (0x41 + d)) = true := by rw [isUpperCode_iff, hcode]; omega
  rw [digitValue, if_neg hdec, if_pos hup, hcode, Nat.add_sub_cancel_left, Nat.add_comm]

/-- A lowercase letter has the value of the uppercase letter up to radix 36, and a value from 36 on above
(46_radix.md R211). -/
theorem digitValue_lower (p : HostParams) (r : Nat) {d : Nat} (hd : d < 26) :
    digitValue p (BitVec.ofNat 8 (0x61 + d)) r = if r ≤ 36 then 10 + d else 36 + d := by
  have hcode : (BitVec.ofNat 8 (0x61 + d)).toNat = 0x61 + d := Nat.mod_eq_of_lt (by omega)
  have hdec : ¬ isDecimalCode (BitVec.ofNat 8 (0x61 + d)) = true := by rw [isDecimalCode_iff, hcode]; omega
  have hup : ¬ isUpperCode (BitVec.ofNat 8 (0x61 + d)) = true := by rw [isUpperCode_iff, hcode]; omega
  have hlow : isLowerCode (BitVec.ofNat 8 (0x61 + d)) = true := by rw [isLowerCode_iff, hcode]; omega
  rw [digitValue, if_neg hdec, if_neg hup, if_pos hlow, hcode, Nat.add_sub_cancel_left, Nat.add_comm d, Nat.add_comm d]

/-- Outside the 62 fixed symbols only SYM62 and SYM63 are digits (46_radix.md R211). -/
theorem digitValue_of_not_alnum (p : HostParams) (r : Nat) {c : Byte} (h : isAlnumCode c = false) :
    digitValue p c r = if c = p.sym62 then 62 else if c = p.sym63 then 63 else 255 := by
  simp only [isAlnumCode, Bool.or_eq_false_iff] at h
  obtain ⟨⟨hdec, hup⟩, hlow⟩ := h
  simp only [digitValue, hdec, hup, hlow, Bool.false_eq_true, if_false]

/-- The 62 fixed symbols are the characters of the three ranges (46_radix.md R210). -/
theorem mem_textSymbols_iff (c : Byte) : c ∈ textSymbols ↔ isAlnumCode c = true := by
  revert c
  decide

/-- The host's duty on SYM62 and SYM63 (46_radix.md R215). -/
theorem paramsOk_iff (p : HostParams) : paramsOk p = true ↔
    p.sym62 ≠ p.sym63 ∧ isAlnumCode p.sym62 = false ∧ isAlnumCode p.sym63 = false := by
  simp only [paramsOk, Bool.and_eq_true, decide_eq_true_iff, Bool.not_eq_true', and_assoc]

/-- SYM62 has the value 62 under the host's duty (46_radix.md R211, R215). -/
theorem digitValue_sym62 {p : HostParams} (hp : paramsOk p = true) (r : Nat) : digitValue p p.sym62 r = 62 := by
  obtain ⟨-, h62, -⟩ := (paramsOk_iff p).mp hp
  rw [digitValue_of_not_alnum p r h62, if_pos rfl]

/-- SYM63 has the value 63 under the host's duty (46_radix.md R211, R215). -/
theorem digitValue_sym63 {p : HostParams} (hp : paramsOk p = true) (r : Nat) : digitValue p p.sym63 r = 63 := by
  obtain ⟨hne, -, h63⟩ := (paramsOk_iff p).mp hp
  rw [digitValue_of_not_alnum p r h63, if_neg hne.symm, if_pos rfl]

/-- Settles O59: the alphabet is evaluated, the digit values are those of the three ranges and of SYM62 and SYM63. -/
theorem digitAlphabet : Obligations.DigitAlphabet := by
  intro p r
  refine ⟨⟨rfl, rfl, rfl⟩, fun d hd => digitValue_decimal p r hd, fun d hd => digitValue_upper p r hd,
    fun d hd hr => ?_, fun d hd hr => ?_, fun hp => ⟨digitValue_sym62 hp r, digitValue_sym63 hp r⟩,
    fun c hc h62 h63 => ?_⟩
  · exact (digitValue_lower p r hd).trans (if_pos hr)
  · exact (digitValue_lower p r hd).trans (if_neg (not_le.mpr hr))
  · have hother : isAlnumCode c = false := Bool.eq_false_of_not_eq_true fun h => hc ((mem_textSymbols_iff c).mpr h)
    rw [digitValue_of_not_alnum p r hother, if_neg h62, if_neg h63]

/-- The digit value inverts the alphabet on the digits of a radix: a digit from 36 on, a lowercase letter, needs a
radix above 36, where letters are not folded (46_radix.md R210, R211). -/
theorem digitValue_alphaCode {p : HostParams} (hp : paramsOk p = true) {d r : Nat} (hd : d < r) (hr : r ≤ 64) :
    digitValue p (alphaCode p d) r = d := by
  unfold alphaCode
  split_ifs with h10 h36 h62 heq
  · exact digitValue_decimal p r h10
  · rw [digitValue_upper p r (by omega)]
    omega
  · rw [digitValue_lower p r (by omega), if_neg (by omega)]
    omega
  · rw [digitValue_sym62 hp, heq]
  · rw [digitValue_sym63 hp]
    omega

end Sys2Proof.Machine
end

section
/-! PROOFS. The host's `parse` (46_radix.md R213): it consumes the leading digits and answers their value modulo 2^128,
or fails where there are none or the radix is invalid (R214). -/

namespace Sys2Proof.Machine

/-- Whether a character is a digit of a radix (46_radix.md R211). -/
def isDigitOf (p : HostParams) (r : Nat) (c : Byte) : Bool := decide (digitValue p c r < r)

/-- The leading digits of a radix, as many as there are, which `parseLoop` consumes (`parseLoop_eq`). -/
def digitPrefix (p : HostParams) (r : Nat) (text : List Byte) : List Byte := text.takeWhile (isDigitOf p r)

/-- The value after one more character, as an exact natural (46_radix.md R213). -/
def appendDigit (p : HostParams) (r : Nat) (value : Nat) (c : Byte) : Nat := value * r + digitValue p c r

/-- The value of a text of digits, as an exact natural (46_radix.md R213). -/
def digitsValue (p : HostParams) (r : Nat) (text : List Byte) : Nat := text.foldl (appendDigit p r) 0

/-- A digit of a radix has a value below it. -/
theorem isDigitOf_iff (p : HostParams) (r : Nat) (c : Byte) : isDigitOf p r c = true ↔ digitValue p c r < r :=
  decide_eq_true_iff

/-- There are no leading digits when the first character is none. -/
theorem digitPrefix_cons_of_not_digit {p : HostParams} {r : Nat} {c : Byte} (h : r ≤ digitValue p c r)
    (cs : List Byte) : digitPrefix p r (c :: cs) = [] :=
  List.takeWhile_cons_of_neg fun hc => not_lt.mpr h ((isDigitOf_iff p r c).mp hc)

/-- A digit that comes first is the first of the leading digits. -/
theorem digitPrefix_cons_of_digit {p : HostParams} {r : Nat} {c : Byte} (h : digitValue p c r < r)
    (cs : List Byte) : digitPrefix p r (c :: cs) = c :: digitPrefix p r cs :=
  List.takeWhile_cons_of_pos ((isDigitOf_iff p r c).mpr h)

/-- The leading digits are the first characters of the text. -/
theorem take_length_digitPrefix (p : HostParams) (r : Nat) (text : List Byte) :
    text.take (digitPrefix p r text).length = digitPrefix p r text :=
  (List.prefix_iff_eq_take.mp (List.takeWhile_prefix _)).symm

/-- The character after the leading digits is no digit. -/
theorem le_digitValue_after_digitPrefix {p : HostParams} {r : Nat} {text : List Byte} {c : Byte}
    (h : text[(digitPrefix p r text).length]? = some c) : r ≤ digitValue p c r := by
  induction text with
  | nil => exact absurd h (by simp)
  | cons x xs ih =>
    by_cases hx : digitValue p x r < r
    · rw [digitPrefix_cons_of_digit hx] at h
      exact ih h
    · rw [digitPrefix_cons_of_not_digit (not_lt.mp hx)] at h
      obtain rfl : x = c := Option.some.inj h
      exact not_lt.mp hx

/-- MUL by the radix and ADD of the digit append a digit, modulo 2^128 (46_radix.md R213). -/
theorem add128_mul128_digit (p : HostParams) (r m : Nat) (c : Byte) :
    add128 (mul128 (BitVec.ofNat 128 m) (countValue r)) (countValue (digitValue p c r)) =
      BitVec.ofNat 128 (appendDigit p r m c) := by
  rw [add128_eq_add, mul128_eq_mul, countValue, countValue, appendDigit, BitVec.ofNat_add, BitVec.ofNat_mul]

/-- The loop of `parse` consumes the leading digits and appends each to the value, modulo 2^128 (46_radix.md R213). -/
theorem parseLoop_eq (p : HostParams) (r : Nat) (text : List Byte) (m n : Nat) :
    parseLoop p r text (BitVec.ofNat 128 m) n =
      (BitVec.ofNat 128 ((digitPrefix p r text).foldl (appendDigit p r) m), n + (digitPrefix p r text).length) := by
  induction text generalizing m n with
  | nil => rfl
  | cons c cs ih =>
    by_cases hc : digitValue p c r < r
    · rw [parseLoop, if_neg (not_le.mpr hc), add128_mul128_digit, ih, digitPrefix_cons_of_digit hc, List.foldl_cons,
        List.length_cons, Nat.add_assoc, Nat.add_comm 1]
    · rw [parseLoop, if_pos (not_lt.mp hc), digitPrefix_cons_of_not_digit (not_lt.mp hc)]
      rfl

/-- The loop of `parse` from its start answers the value and the number of the leading digits (46_radix.md R213). -/
theorem parseLoop_start (p : HostParams) (r : Nat) (text : List Byte) : parseLoop p r text 0 0 =
    (BitVec.ofNat 128 (digitsValue p r (digitPrefix p r text)), (digitPrefix p r text).length) := by
  have h := parseLoop_eq p r text 0 0
  rwa [Nat.zero_add] at h

/-- The radixes of the text procedures (46_radix.md R212, R213). -/
theorem textRadixOk_iff (r : Nat) : textRadixOk r = true ↔ 2 ≤ r ∧ r ≤ 64 := by
  rw [textRadixOk, Bool.and_eq_true, decide_eq_true_iff, decide_eq_true_iff]

/-- `parse` fails for an invalid radix (46_radix.md R214). -/
theorem parseText_of_invalid (p : HostParams) (text : List Byte) {r : Nat} (hr : ¬ (2 ≤ r ∧ r ≤ 64)) :
    parseText p text r = none :=
  if_neg fun h => hr ((textRadixOk_iff r).mp h)

/-- `parse` fails when no digit comes first (46_radix.md R214). -/
theorem parseText_of_no_digit {p : HostParams} {text : List Byte} {r : Nat} (h : digitPrefix p r text = []) :
    parseText p text r = none := by
  unfold parseText
  split
  · rw [parseLoop_start, h]
    rfl
  · rfl

/-- `parse` answers with the value and the number of the leading digits, if there are any (46_radix.md R213). -/
theorem parseText_of_digits {p : HostParams} {text : List Byte} {r : Nat} (hr : 2 ≤ r ∧ r ≤ 64)
    (h : digitPrefix p r text ≠ []) :
    parseText p text r =
      some (BitVec.ofNat 128 (digitsValue p r (digitPrefix p r text)), (digitPrefix p r text).length) := by
  obtain ⟨c, cs, hcs⟩ := List.exists_cons_of_ne_nil h
  rw [parseText, if_pos ((textRadixOk_iff r).mpr hr), parseLoop_start, hcs]
  rfl

/-- What an answer of `parse` says (46_radix.md R213). -/
theorem parseText_eq_some {p : HostParams} {text : List Byte} {r n : Nat} {v : Wide}
    (h : parseText p text r = some (v, n)) : digitPrefix p r text ≠ [] ∧ n = (digitPrefix p r text).length ∧
      v = BitVec.ofNat 128 (digitsValue p r (digitPrefix p r text)) := by
  have hdigits : digitPrefix p r text ≠ [] := fun hnil => by
    rw [parseText_of_no_digit hnil] at h
    exact Option.some_ne_none _ h.symm
  have hr : 2 ≤ r ∧ r ≤ 64 := by
    by_contra hr
    rw [parseText_of_invalid p text hr] at h
    exact Option.some_ne_none _ h.symm
  rw [parseText_of_digits hr hdigits] at h
  obtain ⟨rfl, rfl⟩ := Prod.mk.inj (Option.some.inj h)
  exact ⟨hdigits, rfl, rfl⟩

/-- Settles O57: `parse` answers for the leading digits (`parseText_eq_some`), and no digit follows them. -/
theorem parseReadsLongestDigitPrefix : Obligations.ParseReadsLongestDigitPrefix := by
  intro p text r v n h
  obtain ⟨hdigits, rfl, rfl⟩ := parseText_eq_some h
  rw [take_length_digitPrefix]
  exact ⟨List.length_pos_iff.mpr hdigits, (List.takeWhile_prefix _).length_le,
    fun c hc => (isDigitOf_iff p r c).mp (List.mem_takeWhile_imp hc),
    fun c hc => le_digitValue_after_digitPrefix hc, rfl⟩

end Sys2Proof.Machine
end

section
/-! PROOFS. The host's `toString` (46_radix.md R212): it writes the digits of the value, as many as R203's table allows,
and `parse` reads them back (R215). -/

namespace Sys2Proof.Machine

/-- The digits that `toString` writes, the lowest first: those of the number, and one 0 for the number 0
(`formatWide_of_valid`). -/
def textDigits (r n : Nat) : List Nat := if n = 0 then [0] else Nat.digits r n

/-- The text of a list of digits, the lowest digit first (46_radix.md R210, R212). -/
def digitsText (p : HostParams) (digits : List Nat) : List Byte := (digits.map (alphaCode p)).reverse

/-! ### The digits -/

/-- Every number has a digit (46_radix.md R214). -/
theorem textDigits_ne_nil (r n : Nat) : textDigits r n ≠ [] := by
  unfold textDigits
  split
  · exact List.cons_ne_nil 0 []
  · next h => exact Nat.digits_ne_nil_iff_ne_zero.mpr h

/-- A digit is below the radix. -/
theorem lt_of_mem_textDigits {r n d : Nat} (hr : 1 < r) (hd : d ∈ textDigits r n) : d < r := by
  unfold textDigits at hd
  split at hd
  · rw [List.mem_singleton.mp hd]
    exact Nat.zero_lt_of_lt hr
  · exact Nat.digits_lt_base hr hd

/-- The digits are those of the number. -/
theorem ofDigits_textDigits (r n : Nat) : Nat.ofDigits r (textDigits r n) = n := by
  unfold textDigits
  split
  · next h => rw [h, Nat.ofDigits_singleton]
  · exact Nat.ofDigits_digits r n

/-- `k` digits suffice exactly for the numbers below `r ^ k` (46_radix.md R203). -/
theorem length_textDigits_le_iff {r k : Nat} (hr : 1 < r) (hk : 0 < k) (n : Nat) :
    (textDigits r n).length ≤ k ↔ n < r ^ k := by
  unfold textDigits
  split
  · next h => exact iff_of_true hk (h ▸ Nat.pow_pos (Nat.zero_lt_of_lt hr))
  · exact Nat.digits_length_le_iff hr n

/-! ### The text -/

/-- The division by a valid radix, as naturals. -/
theorem toNat_divloop_countValue (v : Wide) {r : Nat} (hr : 2 ≤ r ∧ r ≤ 64) :
    (divloop v (countValue r)).1.toNat = v.toNat / r ∧ (divloop v (countValue r)).2.toNat = v.toNat % r := by
  have hcount : (countValue r).toNat = r := Nat.mod_eq_of_lt (by omega)
  have hne : countValue r ≠ 0 := fun h => by
    rw [h] at hcount
    exact absurd (hcount.trans_ge hr.1) (by decide)
  simpa only [hcount] using toNat_divloop v (countValue r) hne

/-- The loop of `toString` prepends the digits of the value, if it has steps for them all (46_radix.md R212). -/
theorem formatLoop_eq (p : HostParams) {r : Nat} (hr : 2 ≤ r ∧ r ≤ 64) {fuel : Nat} {v : Wide}
    (hv : v.toNat < r ^ fuel) (acc : List Byte) :
    formatLoop p r fuel v acc = digitsText p (Nat.digits r v.toNat) ++ acc := by
  induction fuel generalizing v acc with
  | zero =>
    obtain rfl : v = 0 := BitVec.eq_of_toNat_eq (Nat.lt_one_iff.mp hv)
    exact (congrArg (digitsText p · ++ acc) (Nat.digits_zero r)).symm
  | succ fuel ih =>
    obtain rfl | hne := eq_or_ne v 0
    · exact (congrArg (digitsText p · ++ acc) (Nat.digits_zero r)).symm
    · obtain ⟨hquot, hrem⟩ := toNat_divloop_countValue v hr
      have hfit : (divloop v (countValue r)).1.toNat < r ^ fuel := by
        rw [hquot]
        exact Nat.div_lt_of_lt_mul (pow_succ' r fuel ▸ hv)
      rw [formatLoop, if_neg hne, ih hfit, hquot, hrem, Nat.digits_def' hr.1 (toNat_pos_of_ne_zero hne), digitsText,
        digitsText, List.map_cons, List.reverse_cons, List.append_assoc, List.singleton_append]

/-- `toString` writes the digits of the value; 128 steps suffice, for the radix is at least 2 (46_radix.md R212). -/
theorem formatWide_of_valid (p : HostParams) (v : Wide) {r : Nat} (hr : 2 ≤ r ∧ r ≤ 64) :
    formatWide p v r = some (digitsText p (textDigits r v.toNat)) := by
  have hfit : v.toNat < r ^ 128 := v.isLt.trans_le (Nat.pow_le_pow_left hr.1 128)
  rw [formatWide, if_pos ((textRadixOk_iff r).mpr hr)]
  split
  · next h =>
    rw [h]
    rfl
  · next hne =>
    rw [formatLoop_eq p hr hfit, List.append_nil, textDigits, if_neg (toNat_pos_of_ne_zero hne).ne']

/-- `toString` is NULL for an invalid radix (46_radix.md R214). -/
theorem formatWide_of_invalid (p : HostParams) (v : Wide) {r : Nat} (hr : ¬ (2 ≤ r ∧ r ≤ 64)) :
    formatWide p v r = none :=
  if_neg fun h => hr ((textRadixOk_iff r).mp h)

/-- A text has one character per digit. -/
theorem length_digitsText (p : HostParams) (digits : List Nat) : (digitsText p digits).length = digits.length := by
  rw [digitsText, List.length_reverse, List.length_map]

/-- The text of a number is not empty (46_radix.md R214). -/
theorem digitsText_textDigits_ne_nil (p : HostParams) (r n : Nat) : digitsText p (textDigits r n) ≠ [] := by
  rw [← List.length_pos_iff, length_digitsText, List.length_pos_iff]
  exact textDigits_ne_nil r n

/-- Settles O56, by the lemmas on the failures and the digits of the two procedures. -/
theorem textFailureResults : Obligations.TextFailureResults := by
  refine ⟨fun p v text r hr => ?_, fun p r => parseText_of_no_digit rfl,
    fun p c cs r hc => parseText_of_no_digit (digitPrefix_cons_of_not_digit hc cs), fun p v r h2 h64 =>
      ⟨_, formatWide_of_valid p v ⟨h2, h64⟩, digitsText_textDigits_ne_nil p r v.toNat⟩,
    fun p text r fallback v n h => ?_, fun p text r fallback h => ?_⟩
  · have hinvalid : ¬ (2 ≤ r ∧ r ≤ 64) := by omega
    exact ⟨formatWide_of_invalid p v hinvalid, parseText_of_invalid p text hinvalid⟩
  · rw [parseWhole, h]
  · rw [parseWhole, h]

/-! ### The number of digits -/

/-- The rows of R203's table: the number of digits is positive and at most 128, and it is the least one whose power of
the radix is above MAX. -/
theorem maxDigits_spec {r : Nat} (hr : 2 ≤ r ∧ r ≤ 64) : 1 < maxDigits r ∧ maxDigits r ≤ 128 ∧
    r ^ (maxDigits r - 1) < 2 ^ 128 ∧ 2 ^ 128 ≤ r ^ maxDigits r := by
  have rows : ∀ r < 65, 2 ≤ r → 1 < maxDigits r ∧ maxDigits r ≤ 128 ∧
      r ^ (maxDigits r - 1) < 2 ^ 128 ∧ 2 ^ 128 ≤ r ^ maxDigits r := by decide
  exact rows r (by omega) hr.1

/-- Settles O58: `k` digits suffice for a value exactly when it is below `r ^ k`, and the table has the least such `k`
for MAX. -/
theorem digitCountBound : Obligations.DigitCountBound := by
  intro p v r h2 h64
  obtain ⟨hpos, h128, hlow, hhigh⟩ := maxDigits_spec ⟨h2, h64⟩
  have hbound : ∀ w : Wide, (textDigits r w.toNat).length ≤ maxDigits r := fun w =>
    (length_textDigits_le_iff h2 (by omega) _).mpr (w.isLt.trans_le hhigh)
  have hmax : ¬ (textDigits r wideMax.toNat).length ≤ maxDigits r - 1 := by
    have hmaxval : wideMax.toNat = 2 ^ 128 - 1 := BitVec.toNat_allOnes
    rw [length_textDigits_le_iff h2 (by omega), hmaxval]
    omega
  refine ⟨⟨_, formatWide_of_valid p v ⟨h2, h64⟩, ?_⟩, _, formatWide_of_valid p wideMax ⟨h2, h64⟩, ?_⟩
  · rw [length_digitsText]
    exact ⟨hbound v, (hbound v).trans h128⟩
  · rw [length_digitsText]
    exact le_antisymm (hbound wideMax) (by omega)

/-! ### The round trip -/

section
variable {p : HostParams} {r : Nat} {digits : List Nat}

/-- `parse` consumes the whole text of digits of the radix (46_radix.md R215). -/
theorem digitPrefix_digitsText (hp : paramsOk p = true) (hr : r ≤ 64) (hd : ∀ d ∈ digits, d < r) :
    digitPrefix p r (digitsText p digits) = digitsText p digits := by
  refine List.takeWhile_eq_self_iff.mpr fun c hc => (isDigitOf_iff p r c).mpr ?_
  obtain ⟨d, hmem, rfl⟩ := List.mem_map.mp (List.mem_reverse.mp hc)
  rw [digitValue_alphaCode hp (hd d hmem) hr]
  exact hd d hmem

/-- The value of a text of digits is the number they are the digits of (46_radix.md R215). -/
theorem digitsValue_digitsText (hp : paramsOk p = true) (hr : r ≤ 64) (hd : ∀ d ∈ digits, d < r) :
    digitsValue p r (digitsText p digits) = Nat.ofDigits r digits := by
  induction digits with
  | nil => rfl
  | cons d ds ih =>
    obtain ⟨hhead, htail⟩ := List.forall_mem_cons.mp hd
    have happend : digitsValue p r (digitsText p (d :: ds)) =
        appendDigit p r (digitsValue p r (digitsText p ds)) (alphaCode p d) := by
      rw [digitsText, List.map_cons, List.reverse_cons, digitsValue, List.foldl_concat]
      rfl
    rw [happend, ih htail, appendDigit, digitValue_alphaCode hp hhead hr, Nat.ofDigits_cons, Nat.add_comm,
      Nat.mul_comm]

end

/-- Settles O60: all of the text is digits (`digitPrefix_digitsText`), and their value is the formatted one
(`digitsValue_digitsText`). -/
theorem textRoundTrip : Obligations.TextRoundTrip := by
  intro p v r hp h2 h64
  have hd : ∀ d ∈ textDigits r v.toNat, d < r := fun d => lt_of_mem_textDigits h2
  have hprefix := digitPrefix_digitsText hp h64 hd
  have hne : digitPrefix p r (digitsText p (textDigits r v.toNat)) ≠ [] := by
    rw [hprefix]
    exact digitsText_textDigits_ne_nil p r v.toNat
  refine ⟨_, formatWide_of_valid p v ⟨h2, h64⟩, ?_⟩
  rw [parseText_of_digits ⟨h2, h64⟩ hne, hprefix, digitsValue_digitsText hp h64 hd, ofDigits_textDigits,
    BitVec.ofNat_toNat, BitVec.setWidth_eq]

end Sys2Proof.Machine
end

section
/-! PROOFS. The byte codec (47_bytecodec.md): the bytes an encoding stores, the sum a decoding takes of them, and that
each undoes the other. What is proved of the little-endian layout gives the big-endian one, which is its reversal. -/

namespace Sys2Proof.Machine

/-! ### The two layouts and their sums -/

/-- A bit of the weighted sum of `n` bytes is the bit of the byte it falls in. -/
theorem testBit_sum_bytes (f : Nat → Byte) (n k : Nat) :
    (∑ i ∈ Finset.range n, (f i).toNat * 2 ^ (8 * i)).testBit k =
      (decide (k < 8 * n) && (f (k / 8)).getLsbD (k % 8)) := by
  induction n generalizing f k with
  | zero => simp
  | succ n ih =>
    have hsum : ∑ i ∈ Finset.range (n + 1), (f i).toNat * 2 ^ (8 * i) =
        2 ^ 8 * ∑ i ∈ Finset.range n, (f (i + 1)).toNat * 2 ^ (8 * i) + (f 0).toNat := by
      rw [Finset.sum_range_succ', Finset.mul_sum]
      exact congrArg₂ (· + ·) (Finset.sum_congr rfl fun i _ => by ring) (by simp)
    rw [hsum, Nat.testBit_two_pow_mul_add _ (f 0).isLt]
    split
    · next hk =>
      rw [Nat.div_eq_of_lt hk, Nat.mod_eq_of_lt hk, decide_eq_true (show k < 8 * (n + 1) by omega), Bool.true_and,
        BitVec.testBit_toNat]
    · next hk =>
      rw [ih, show (k - 8) / 8 + 1 = k / 8 by omega, show (k - 8) % 8 = k % 8 by omega,
        decide_eq_decide.mpr (show k - 8 < 8 * n ↔ k < 8 * (n + 1) by omega)]

/-- The big-endian sum is the little-endian one of the bytes reversed (47_bytecodec.md R231). -/
theorem sum_bigEndian_eq_sum_reversed (f : Nat → Byte) :
    ∑ i ∈ Finset.range 16, (f i).toNat * 2 ^ (8 * (15 - i)) =
      ∑ i ∈ Finset.range 16, (f (15 - i)).toNat * 2 ^ (8 * i) := by
  rw [← Finset.sum_range_reflect]
  refine Finset.sum_congr rfl fun i hi => ?_
  rw [show 15 - (16 - 1 - i) = i by have := Finset.mem_range.mp hi; omega]

/-- The little-endian sum inverts the little-endian layout (47_bytecodec.md R231, R235). -/
theorem ofNat_sum_littleEndian_bytes (v : Wide) :
    BitVec.ofNat 128 (∑ i ∈ Finset.range 16, (v.extractLsb' (8 * i) 8).toNat * 2 ^ (8 * i)) = v := by
  refine BitVec.eq_of_getLsbD_eq fun k hk => ?_
  rw [BitVec.getLsbD_ofNat, testBit_sum_bytes, BitVec.getLsbD_extractLsb', Nat.div_add_mod]
  simp [hk, Nat.mod_lt]

/-- The big-endian sum inverts the big-endian layout (47_bytecodec.md R230, R234). -/
theorem ofNat_sum_bigEndian_bytes (v : Wide) :
    BitVec.ofNat 128 (∑ i ∈ Finset.range 16, (v.extractLsb' (8 * (15 - i)) 8).toNat * 2 ^ (8 * (15 - i))) = v := by
  rw [sum_bigEndian_eq_sum_reversed fun i => v.extractLsb' (8 * (15 - i)) 8]
  refine Eq.trans (congrArg _ (Finset.sum_congr rfl fun i hi => ?_)) (ofNat_sum_littleEndian_bytes v)
  rw [show 15 - (15 - i) = i by have := Finset.mem_range.mp hi; omega]

/-- The little-endian layout of the little-endian sum of 16 bytes is these bytes (47_bytecodec.md R231, R235). -/
theorem littleEndian_byte_of_sum (f : Nat → Byte) {i : Nat} (hi : i < 16) :
    (BitVec.ofNat 128 (∑ i ∈ Finset.range 16, (f i).toNat * 2 ^ (8 * i))).extractLsb' (8 * i) 8 = f i := by
  refine BitVec.eq_of_getLsbD_eq fun k hk => ?_
  rw [BitVec.getLsbD_extractLsb', BitVec.getLsbD_ofNat, testBit_sum_bytes, show (8 * i + k) / 8 = i by omega,
    show (8 * i + k) % 8 = k by omega]
  simp [hk, show 8 * i + k < 128 by omega]

/-- The big-endian layout of the big-endian sum of 16 bytes is these bytes (47_bytecodec.md R230, R234). -/
theorem bigEndian_byte_of_sum (f : Nat → Byte) {i : Nat} (hi : i < 16) :
    (BitVec.ofNat 128 (∑ i ∈ Finset.range 16, (f i).toNat * 2 ^ (8 * (15 - i)))).extractLsb' (8 * (15 - i)) 8 =
      f i := by
  rw [sum_bigEndian_eq_sum_reversed, littleEndian_byte_of_sum (fun i => f (15 - i)) (by omega),
    show 15 - (15 - i) = i by omega]

/-! ### Encoding -/

/-- A command that reads A and stores 16 bytes answers with these bytes in BUF and nothing else changed. -/
theorem onA_bytes_answersBytes {s : State} {a : Wide} (ha : s.operandA = some a) (byte : Wide → Nat → Byte) :
    AnswersBytes (onA s fun a => .ok { bytes := bytesOf (byte a) }) s (byte a) := by
  refine ⟨_, onA_of_some ha _, ?_, fun i hi => ?_, fun i hi => ?_⟩
  · rw [State.view_complete_bytes, State.complete_bytes, State.finish_buf]
  · rw [State.complete_bytes, State.finish_buf, State.read_storeBytes, if_pos hi]
  · rw [State.complete_bytes, State.finish_buf, State.read_storeBytes, if_neg (Nat.not_lt.mpr hi)]

/-- Settles O26: both commands store the 16 bytes of their layout of A (`onA_bytes_answersBytes`). -/
theorem encodeStoresSixteenBytes : Obligations.EncodeStoresSixteenBytes :=
  ⟨⟨rfl, rfl⟩, fun _ _ ha => ⟨onA_bytes_answersBytes ha beByte, onA_bytes_answersBytes ha leByte⟩⟩

/-! ### Decoding -/

/-- A run of written bytes reads as the list of them. -/
theorem Memory.readRun_eq_map {m : Memory} {f : Nat → Byte} {i n : Nat}
    (h : ∀ j, i ≤ j → j < i + n → m.read j = some (f j)) : m.readRun i n = some ((List.range' i n).map f) := by
  induction n generalizing i with
  | zero => rfl
  | succ n ih =>
    have hrest := ih (i := i + 1) fun j h1 h2 => h j (by omega) (by omega)
    simp only [Memory.readRun, h i (Nat.le_refl i) (by omega), hrest, List.range'_succ, List.map_cons]

/-- Every byte of a run that can be read is written. -/
theorem Memory.isSome_read_of_readRun {m : Memory} {i n j : Nat} (h : (m.readRun i n).isSome = true) (hij : i ≤ j)
    (hj : j < i + n) : (m.read j).isSome = true := by
  induction n generalizing i with
  | zero => omega
  | succ n ih =>
    unfold Memory.readRun at h
    split at h
    · next b bs hb hbs =>
      rcases Nat.eq_or_lt_of_le hij with rfl | hlt
      · rw [hb, Option.isSome_some]
      · exact ih (by rw [hbs, Option.isSome_some]) hlt (by omega)
    · cases h

/-- The value of a run of bytes, by their places, is their weighted sum modulo `2^128`. -/
theorem placeValue_map_range' (place : Nat → Nat) (f : Nat → Byte) (i n : Nat) :
    placeValue place i ((List.range' i n).map f) =
      BitVec.ofNat 128 (∑ j ∈ Finset.range n, (f (i + j)).toNat * 2 ^ place (i + j)) := by
  induction n generalizing i with
  | zero => rfl
  | succ n ih =>
    have hbyte : (f i).setWidth 128 <<< place i = BitVec.ofNat 128 ((f i).toNat * 2 ^ place i) := by
      apply BitVec.eq_of_toNat_eq
      simp [Nat.shiftLeft_eq]
    rw [List.range'_succ, List.map_cons, placeValue, ih, hbyte, ← BitVec.ofNat_add, Finset.sum_range_succ',
      Nat.add_comm]
    simp only [Nat.add_assoc, Nat.add_comm 1, Nat.add_zero]

/-- A command that reads BUF and writes R with the value of its bytes answers with their weighted sum in R. -/
theorem onBuf_placeValue_answersView {s : State} {f : Nat → Byte} (h : ∀ i, i < 16 → s.buf.read i = some (f i))
    (place : Nat → Nat) :
    AnswersView (onBuf s fun bs => okR (placeValue place 0 bs))
      (s.view.wroteR (BitVec.ofNat 128 (∑ i ∈ Finset.range 16, (f i).toNat * 2 ^ place i))) := by
  have hbuf : s.operandBuf = some ((List.range' 0 16).map f) :=
    Memory.readRun_eq_map fun j _ hj => h j (by omega)
  refine ⟨_, onBuf_of_some hbuf _, ?_⟩
  rw [State.view_complete_okR, placeValue_map_range']
  simp only [Nat.zero_add]

/-- BUF is no operand while one of its bytes is UNWRITTEN (10_state.md R33). -/
theorem operandBuf_eq_none {s : State} {i : Nat} (hi : i < 16) (h : s.buf.read i = none) : s.operandBuf = none := by
  rw [← Option.not_isSome_iff_eq_none]
  intro hsome
  have hread := Memory.isSome_read_of_readRun hsome (Nat.zero_le i) (by simpa using hi)
  rw [h] at hread
  cases hread

/-- Settles O27: both commands write the weighted sum of the bytes (`onBuf_placeValue_answersView`), and the sums invert
the layouts. -/
theorem decodeSumsSixteenBytes : Obligations.DecodeSumsSixteenBytes :=
  ⟨⟨rfl, rfl⟩,
    fun _ _ h => ⟨onBuf_placeValue_answersView h _, onBuf_placeValue_answersView h _⟩,
    fun _ _ hi h => ⟨onBuf_of_none (operandBuf_eq_none hi h) _, onBuf_of_none (operandBuf_eq_none hi h) _⟩,
    fun v => ⟨ofNat_sum_bigEndian_bytes v, ofNat_sum_littleEndian_bytes v⟩⟩

/-! ### Round trips -/

/-- R holds the value of a success that wrote it. -/
theorem resultR_of_view_wroteR {t : State} {v : View} {r : Wide} (h : t.view = v.wroteR r) : t.resultR = some r := by
  have hHi : t.rHi = some (hiWord r) := congrArg View.rHi h
  have hLo : t.rLo = some (loWord r) := congrArg View.rLo h
  rw [State.resultR, hHi, hLo]
  exact congrArg some (joinWords_words r)

/-- A command `enc` that stores bytes, then one `dec` that sums them to `a`, leaves `a` in R. -/
theorem encode_then_decode {enc dec : State → Result} {s : State} {f : Nat → Byte} {a : Wide}
    (henc : AnswersBytes (enc s) s f)
    (hdec : ∀ t, (∀ i, i < 16 → t.buf.read i = some (f i)) → AnswersView (dec t) (t.view.wroteR a)) :
    ∃ t u, enc s = .next t ∧ dec t = .next u ∧ u.resultR = some a := by
  obtain ⟨t, ht, -, hbytes, -⟩ := henc
  obtain ⟨u, hu, hview⟩ := hdec t hbytes
  exact ⟨t, u, ht, hu, resultR_of_view_wroteR hview⟩

/-- A command `dec` that writes R, then one `enc` that stores BUF's own bytes for this value in A, leaves BUF. -/
theorem decode_then_encode {enc dec : State → Result} {s : State} {f : Nat → Byte} {v : Wide}
    (hread : ∀ i, i < 16 → s.buf.read i = some (f i))
    (hdec : AnswersView (dec s) (s.view.wroteR v))
    (henc : ∀ t, t.operandA = some v → AnswersBytes (enc t) t f) :
    ∃ t u, dec s = .next t ∧ enc { t with aHi := t.rHi, aLo := t.rLo } = .next u ∧
      ∀ i, u.buf.read i = s.buf.read i := by
  obtain ⟨t, ht, hview⟩ := hdec
  obtain ⟨u, hu, -, hbytes, hrest⟩ := henc { t with aHi := t.rHi, aLo := t.rLo } (resultR_of_view_wroteR hview)
  have hbuf : t.buf = s.buf := congrArg View.buf hview
  refine ⟨t, u, ht, hu, fun i => ?_⟩
  rcases Nat.lt_or_ge i 16 with hi | hi
  · rw [hbytes i hi, hread i hi]
  · rw [hrest i hi, hbuf]

/-- When BUF is written whole, it holds some 16 bytes. -/
theorem exists_bytes_of_written {s : State} (h : s.written .buf = true) :
    ∃ f : Nat → Byte, ∀ i, i < 16 → s.buf.read i = some (f i) := by
  refine ⟨fun i => (s.buf.read i).getD 0, fun i hi => ?_⟩
  obtain ⟨b, hb⟩ := Option.isSome_iff_exists.mp
    (Memory.isSome_read_of_readRun h (Nat.zero_le i) (by simpa using hi))
  simp only [hb, Option.getD_some]

/-- Settles O28: the sums invert the layouts (`ofNat_sum_bigEndian_bytes`) and the layouts the sums
(`bigEndian_byte_of_sum`), and likewise for the little-endian ones. -/
theorem byteRoundTrips : Obligations.ByteRoundTrips := by
  obtain ⟨-, hencode⟩ := encodeStoresSixteenBytes
  obtain ⟨-, hdecode, -⟩ := decodeSumsSixteenBytes
  refine ⟨fun s a ha => ⟨?_, ?_⟩, fun s hs => ?_, fun _ _ _ => rfl⟩
  · refine encode_then_decode (enc := exec .encbe) (dec := exec .decbe) (hencode s a ha).1 fun t ht => ?_
    have h := (hdecode t _ ht).1
    rwa [ofNat_sum_bigEndian_bytes] at h
  · refine encode_then_decode (enc := exec .encle) (dec := exec .decle) (hencode s a ha).2 fun t ht => ?_
    have h := (hdecode t _ ht).2
    rwa [ofNat_sum_littleEndian_bytes] at h
  · obtain ⟨f, hf⟩ := exists_bytes_of_written hs
    refine ⟨decode_then_encode (enc := exec .encbe) (dec := exec .decbe) (fun i hi => ?_) (hdecode s f hf).1
        fun t ht => (hencode t _ ht).1,
      decode_then_encode (enc := exec .encle) (dec := exec .decle) (fun i hi => ?_) (hdecode s f hf).2
        fun t ht => (hencode t _ ht).2⟩
    · rw [hf i hi, bigEndian_byte_of_sum f hi]
    · rw [hf i hi, littleEndian_byte_of_sum f hi]

end Sys2Proof.Machine
end

section
/-! PROOFS. How a command ends and how the model stops (60_exceptions.md): every completion is a success or one of the
failures of R251, the block is then ready for the next command (R250), and the only stops are the model faults of
R262, which are permanent (R263). -/

namespace Sys2Proof.Machine

/-! ### Which commands fail -/

/-- A command of a defined opcode that completes succeeds, or is a DIVMOD by 0 or an RDIV by an invalid radix and
fails (60_exceptions.md R254). -/
theorem exec_succeeds_or_fails {i : Instr} {s t : State} (hi : i.isCommand = true) (h : exec i s = .next t) :
    (∃ w, t = s.complete (.ok w)) ∨
    (t = s.failWith .divz ∧ i = .divmod ∧ s.operandB = some 0) ∨
    (t = s.failWith .badradix ∧ i = .rdiv ∧ ∃ b, s.operandB = some b ∧ ¬ (2 ≤ b.toNat ∧ b.toNat ≤ 64)) := by
  rcases exec_command_next hi h with ⟨_, ht, _⟩ | ⟨_, _, _, _, _, ht, _⟩ | ⟨_, ht, _⟩ | hdivz |
    ⟨ht, hrdiv, b, hb, hv⟩
  · exact .inl ⟨_, ht⟩
  · exact .inl ⟨_, ht⟩
  · exact .inl ⟨_, ht⟩
  · exact .inr (.inl hdivz)
  · refine .inr (.inr ⟨ht, hrdiv, b, hb, fun hvalid => ?_⟩)
    rw [(radixValid_iff b).mpr hvalid] at hv
    cases hv

/-- STATUS after a completion of a defined opcode (60_exceptions.md R251). -/
theorem status_of_exec {i : Instr} {s t : State} (hi : i.isCommand = true) (h : exec i s = .next t) :
    t.status = 0x02 ∨ t.status = 0x04 ∨ t.status = 0x08 := by
  rcases exec_succeeds_or_fails hi h with ⟨w, rfl⟩ | ⟨rfl, _⟩ | ⟨rfl, _⟩
  · exact .inl (s.complete_ok_status w)
  · exact .inr (.inl rfl)
  · exact .inr (.inr rfl)

/-- The completion step of a reserved opcode answers with the failure ILLOP (30_encoding.md R84). -/
theorem reserved_answersView {c : Byte} {s : State} (hc : decodeCommand c = .reject .reservedOpcode)
    (hf : s.fault = none) (hp : s.pending = some c) (hw : s.wait = 0) :
    AnswersView (step s) (s.view.failed 0x0C) :=
  ⟨_, step_of_reserved hc hf hp hw, s.view_failWith .illop⟩

/-- The state after reset with 0 in A and B, a divisor on which DIVMOD and RDIV both fail. -/
def zeroOperands : State :=
  { State.reset with aHi := some 0, aLo := some 0, bHi := some 0, bLo := some 0 }

/-- Settles O32: `exec_succeeds_or_fails`, and 0 as the divisor and as the radix for the two failures. -/
theorem onlyDivmodRdivAndReservedFail : Obligations.OnlyDivmodRdivAndReservedFail := by
  have ha : zeroOperands.operandA = some 0 := by decide
  have hb : zeroOperands.operandB = some 0 := by decide
  refine ⟨fun i s t hi h => ?_, ?_, ?_, fun _ _ => reserved_answersView⟩
  · rcases exec_succeeds_or_fails hi h with ⟨w, rfl⟩ | ⟨rfl, hdivmod, h0⟩ | ⟨rfl, hrdiv, hradix⟩
    · exact .inl (s.complete_ok_status w)
    · exact .inr (.inl ⟨hdivmod, rfl, h0⟩)
    · exact .inr (.inr ⟨hrdiv, rfl, hradix⟩)
  · obtain ⟨t, ht, hview⟩ := execDivmod_of_zero ha hb
    exact ⟨zeroOperands, t, ht, congrArg View.status hview⟩
  · obtain ⟨t, ht, hview⟩ := execRdiv_of_invalid ha hb (by decide)
    exact ⟨zeroOperands, t, ht, congrArg View.status hview⟩

/-! ### The results after a failure and after a success -/

/-- A success leaves a value in each result register of its "writes" column (30_encoding.md R82, R92). -/
theorem OutcomeOf.results_written {i : Instr} {o : CommandOutcome} (ho : OutcomeOf i o) {s : State}
    (hst : (s.complete o).status = 0x02) :
    (.r ∈ writesOf i → (s.complete o).resultR.isSome = true) ∧
    (.r2 ∈ writesOf i → (s.complete o).resultR2.isSome = true) := by
  cases ho with
  | value v hw => exact ⟨fun _ => rfl, by simp [hw]⟩
  | division a b _ =>
    obtain ⟨w, e⟩ := s.complete_division a b
    rw [e]
    exact ⟨fun _ => rfl, fun _ => rfl⟩
  | encoding f hw => simp [hw]
  | failure c => exact absurd hst (statusFail_ne_ok c)

/-- Settles O33: a completion that is no success is `failWith`, and a success writes its column's results. -/
theorem failureLeavesResultsUnwritten : Obligations.FailureLeavesResultsUnwritten := by
  refine ⟨fun i s t hi h hst => ?_, fun _ _ => reserved_answersView, fun i s t hi h hst => ?_⟩
  · have hcode : t.status = 0x04 ∨ t.status = 0x08 := (status_of_exec hi h).resolve_left hst
    have hfail : ∃ c, t = s.failWith c := by
      rcases exec_succeeds_or_fails hi h with ⟨w, rfl⟩ | ⟨ht, _⟩ | ⟨ht, _⟩
      · exact absurd (s.complete_ok_status w) hst
      · exact ⟨_, ht⟩
      · exact ⟨_, ht⟩
    obtain ⟨c, rfl⟩ := hfail
    obtain ⟨ha, hb, hfault, hmodel⟩ := s.complete_frame (.fail c)
    exact ⟨rfl, rfl, rfl, rfl, ha, hb, rfl, hfault, hmodel, rfl, hcode⟩
  · obtain ⟨o, ho, rfl, _⟩ := exec_command_outcome hi h
    exact ho.results_written hst

/-! ### The block after a completion -/

/-- The fields of each STATUS of a completion (10_state.md R30, 60_exceptions.md R251). -/
theorem State.outcome_fields {t : State} (h : t.status = 0x02 ∨ t.status = 0x04 ∨ t.status = 0x08) :
    ((t.okBit = true ∧ t.errField = 0) ∨ (t.okBit = false ∧ (t.errField = 1 ∨ t.errField = 2))) ∧
    t.status.extractLsb' 5 3 = 0 := by
  unfold State.okBit State.errField
  rcases h with h | h | h <;> rw [h] <;> decide

/-- Settles O53: every completion clears BUSY and what is in flight, so that the next CMD write starts its command. -/
theorem completionClearsBusy : Obligations.CompletionClearsBusy := by
  intro i s t hi h
  obtain ⟨hfields, hreserved⟩ := State.outcome_fields (status_of_exec hi h)
  obtain ⟨o, _, rfl, _⟩ := exec_command_outcome hi h
  have hbusy := s.complete_busy o
  exact ⟨hbusy, s.complete_pending o, hfields, hreserved,
    fun c => ⟨_, exec_hwr_cmd hbusy c, State.view_startCommand _ c⟩⟩

/-! ### Model faults -/

/-- A command is never refused: it completes, or meets the fault of an UNWRITTEN operand (30_encoding.md R92). -/
theorem exec_command_ne_refused {i : Instr} (hi : i.isCommand = true) (s : State) (r : Refusal) :
    exec i s ≠ .refused r := by
  by_cases hw : ∃ p ∈ readsOf i, s.written p = false
  · rw [exec_of_unwritten hi hw]
    exact nofun
  · obtain ⟨t, ht⟩ := exec_of_written (s := s) hi (by simpa using hw)
    rw [ht]
    exact nofun

/-- A host write is never refused: it answers the write or the fault HOST_PROTOCOL (30_encoding.md R86). -/
theorem execHwr_ne_refused (n : BitVec 5) (d : Word) (s : State) (r : Refusal) : execHwr n d s ≠ .refused r := by
  unfold execHwr
  split
  · exact nofun
  · split <;> exact nofun

/-- A host read is never refused: it answers the value or one of the two faults (30_encoding.md R86). -/
theorem execHrd_ne_refused (n : BitVec 5) (s : State) (r : Refusal) : execHrd n s ≠ .refused r := by
  unfold execHrd
  split
  · exact nofun
  · split
    · exact nofun
    · split <;> exact nofun

/-- No instruction is refused. -/
theorem exec_ne_refused (i : Instr) (s : State) (r : Refusal) : exec i s ≠ .refused r := by
  cases i with
  | hwr n d => exact execHwr_ne_refused n d s r
  | hrd n => exact execHrd_ne_refused n s r
  | _ => exact exec_command_ne_refused rfl s r

/-- Settles O50: a step without an instruction is a next state or a fault. -/
theorem noStepIsRefused : Obligations.NoStepIsRefused := by
  refine ⟨exec_ne_refused, fun s r => ?_⟩
  unfold step
  cases fetch s with
  | run i u => exact exec_ne_refused i u r
  | go u => exact nofun
  | stop f => exact nofun

/-- A fault that a step meets is recorded, with nothing else changed (10_state.md R36). -/
theorem stepLatched_of_fault {s : State} {r : Fault} (hf : s.fault = none) (h : step s = .fault r) :
    stepLatched s = { s with fault := some r } := by
  simp only [stepLatched, h, State.recordFault, hf]

/-- A recorded fault stays, with all the rest of the state (60_exceptions.md R263). -/
theorem stepLatched_of_recorded {s : State} {r : Fault} (hf : s.fault = some r) : stepLatched s = s := by
  simp only [stepLatched, step_of_fault hf, State.recordFault, hf]

/-- Any number of steps leaves a state with a recorded fault as it is (60_exceptions.md R263). -/
theorem runLatched_of_recorded {s : State} {r : Fault} (hf : s.fault = some r) (n : Nat) : runLatched n s = s := by
  induction n with
  | zero => rfl
  | succ n ih => rw [runLatched, stepLatched_of_recorded hf, ih]

/-- Settles O49, by one step of the machine that records faults, and induction on their number. -/
theorem modelFaultIsPermanent : Obligations.ModelFaultIsPermanent := by
  refine ⟨fun s r hf => ⟨step_of_fault hf, runLatched_of_recorded hf⟩, fun s r hf h => ?_⟩
  have hrecord := stepLatched_of_fault hf h
  exact ⟨hrecord, congrArg State.fault hrecord⟩

end Sys2Proof.Machine
end

section
/-! PROOFS. Reset as the host's next event, and the steps of an idle host to the completion of the command in flight
(70_reset_and_hazards.md R280, R290). -/

namespace Sys2Proof.Machine

/-! ### Reset -/

/-- Reset at the head of the host's queue takes effect (70_reset_and_hazards.md R280). -/
theorem fetchHost_reset {s : State} {rest : List HostEvent} (hh : s.host = .reset :: rest) :
    fetchHost s = .go (State.resetEvent { s with host := rest }) := by
  simp only [fetchHost, hh]

/-- The tuple after reset, with no fault recorded before it (10_state.md R35). -/
theorem State.view_resetEvent {s : State} (hf : s.fault = none) : s.resetEvent.view = State.reset.view := by
  simp [State.view, hf, State.reset]

/-- Settles O48: where the host moves, with or without a command in flight, its reset event is the step. -/
theorem resetAbandonsCommandInFlight : Obligations.ResetAbandonsCommandInFlight := by
  intro s rest hf hh hmove
  cases hp : s.pending with
  | none =>
    refine ⟨State.resetEvent { s with host := rest }, ?_, State.view_resetEvent hf⟩
    simp only [step, fetch_idle hf hp, fetchHost_reset hh]
  | some c =>
    obtain ⟨k, hk⟩ := Nat.exists_eq_add_one.mpr (hmove.resolve_left (by simp [hp]))
    refine ⟨State.resetEvent { s with wait := k, host := rest }, ?_, State.view_resetEvent hf⟩
    simp only [step, fetch_waiting hf hp hk, fetchHost_reset (s := { s with wait := k }) hh]

/-! ### The steps to a completion -/

/-- With an idle host and a command in flight that is not due, a step of the draw passes and nothing else
(60_exceptions.md R267, log entry 1). -/
theorem step_waiting_idle_host {s : State} {c : Byte} {k : Nat} (hf : s.fault = none) (hp : s.pending = some c)
    (hw : s.wait = k + 1) (hh : s.host = []) : step s = .next { s with wait := k } := by
  simp only [step, fetch_waiting hf hp hw, fetchHost, hh]

/-- With an idle host the draw runs out in as many steps as are left of it (70_reset_and_hazards.md R290). -/
theorem run_waiting_idle_host {s : State} {c : Byte} (hf : s.fault = none) (hp : s.pending = some c)
    (hh : s.host = []) (k : Nat) : RunsTo k { s with wait := k } { s with wait := 0 } := by
  induction k with
  | zero => rfl
  | succ k ih =>
    have hpass := step_waiting_idle_host (s := { s with wait := k + 1 }) hf hp rfl hh
    exact (run_succ_of_next hpass).trans ih

/-- Settles O54: the steps left of the draw, and the completion step after them. -/
theorem startedCommandCompletes : Obligations.StartedCommandCompletes := by
  intro s c hf hp hh
  have hrun : RunsTo s.wait s { s with wait := 0 } := run_waiting_idle_host hf hp hh s.wait
  exact ⟨hrun, (run_add 1 hrun).trans (run_one _)⟩

end Sys2Proof.Machine
end
